-- ==== Sys2Proof/Word.lean ====
section
/-! DEFINITION. The widths of the block (00_scope.md R6, R8): a byte, a 32-bit value, a command word and a response word. -/

namespace Sys2Proof

/-- A byte, `BYTE_W` = 8 bits (R6). -/
abbrev Byte := BitVec 8

/-- A 32-bit value: the register, an operand, a checksum, response data (R6). -/
abbrev Word := BitVec 32

/-- A command word, `CMD_W` = 40 bits (R8, R32). -/
abbrev CmdWord := BitVec 40

/-- A response word, `RSP_W` = 40 bits (R8, R40). -/
abbrev RspWord := BitVec 40

end Sys2Proof
end

