-- ==== Sys2Proof/Machine/Operands.lean ====
section
/-! DEFINITION. Packing four bytes into a 32-bit operand and unpacking it (20_memory.md R25): big-endian, for the operands of
`CRC_WORD`, `CRC_CHECK` and `TC_DECODE` and for response data (R26, R35, R70). -/

namespace Sys2Proof.Machine

/-- Byte `k` of a packed operand, `bytes4(w)[k]`: byte 0 is `w[31:24]`, byte 3 is `w[7:0]` (R25, R70). -/
def byte0 (w : Word) : Byte := w.extractLsb' 24 8
/-- Byte 1, `w[23:16]` (R25). -/
def byte1 (w : Word) : Byte := w.extractLsb' 16 8
/-- Byte 2, `w[15:8]` (R25). -/
def byte2 (w : Word) : Byte := w.extractLsb' 8 8
/-- Byte 3, `w[7:0]` (R25). -/
def byte3 (w : Word) : Byte := w.extractLsb' 0 8

/-- `bytes4(w)` (R25). -/
def bytes4 (w : Word) : List Byte := [byte0 w, byte1 w, byte2 w, byte3 w]

/-- `pack4([b0, b1, b2, b3])`: the first byte in the most significant place (R25). -/
def pack4 (b0 b1 b2 b3 : Byte) : Word := b0 ++ b1 ++ b2 ++ b3

/-- The four bytes at the head of a byte sequence, packed; none where there are fewer than four. -/
def packHead : List Byte → Option Word
  | b0 :: b1 :: b2 :: b3 :: _ => some (pack4 b0 b1 b2 b3)
  | _ => none

end Sys2Proof.Machine
end

