-- ==== Sys2Proof/Syntax.lean ====
section
/-! DEFINITION. The commands: one constructor per row of spec/opcode_table.json (30_encoding.md R34). -/

namespace Sys2Proof

/-- A legal command with its operand. Each operand has exactly the width of its field (R33, R35), so every term is a command
some word encodes; what can be ill formed is a command WORD (WellFormed.lean). -/
inductive Instr where
  /-- `CRC_INIT`, op 0x01, format Z (R60). -/
  | crcInit
  /-- `CRC_BYTE b`, op 0x02, format B (R61). -/
  | crcByte (b : Byte)
  /-- `CRC_WORD w`, op 0x03, format W (R62). -/
  | crcWord (w : Word)
  /-- `CRC_READ`, op 0x04, format Z (R63). -/
  | crcRead
  /-- `CRC_CHECK w`, op 0x05, format W (R64). -/
  | crcCheck (w : Word)
  /-- `TC_DECODE w`, op 0x10, format W (R81). -/
  | tcDecode (w : Word)
  deriving DecidableEq, Repr

end Sys2Proof
end

