-- ==== Sys2Proof/WellFormed.lean ====
section
/-! DEFINITION. The opcode map (30_encoding.md R34) and the well-formedness of a command word: its opcode is defined and its
must-be-zero bits are zero (R33, R37). An `Instr` needs no check of its own: its operands have the widths of their fields. -/

namespace Sys2Proof

/-- The three formats of R33: no operand, one byte operand, one 32-bit operand. -/
inductive Format where
  | Z | B | W
  deriving DecidableEq, Repr

/-- The must-be-zero bits of each format are zero (R33): all of `arg` in format Z, `arg[31:8]` in format B, none in W. -/
def Format.argOk (f : Format) (arg : Word) : Bool :=
  match f with
  | .Z => arg == 0
  | .B => arg.extractLsb' 8 24 == 0
  | .W => true

/-- One row of the opcode map of R34. -/
structure OpRow where
  op : Byte
  mnemonic : String
  format : Format
  matchBits : CmdWord
  maskBits : CmdWord
  deriving DecidableEq, Repr

/-- The opcode map, in the table's order (R34). -/
def opcodeTable : List OpRow :=
  [ ⟨0x01, "CRC_INIT", .Z, 0x0100000000, 0xFFFFFFFFFF⟩,
    ⟨0x02, "CRC_BYTE", .B, 0x0200000000, 0xFFFFFFFF00⟩,
    ⟨0x03, "CRC_WORD", .W, 0x0300000000, 0xFF00000000⟩,
    ⟨0x04, "CRC_READ", .Z, 0x0400000000, 0xFFFFFFFFFF⟩,
    ⟨0x05, "CRC_CHECK", .W, 0x0500000000, 0xFF00000000⟩,
    ⟨0x10, "TC_DECODE", .W, 0x1000000000, 0xFF00000000⟩ ]

/-- A word selects a row when `(cmd & mask) == match` (R34). -/
def OpRow.selects (r : OpRow) (cmd : CmdWord) : Bool := cmd &&& r.maskBits == r.matchBits

/-- A command word is well formed: its `op` is some row's and that row's must-be-zero bits are zero (R33, R37). -/
def wellFormed (cmd : CmdWord) : Bool :=
  opcodeTable.any fun r => cmd.extractLsb' 32 8 == r.op && r.format.argOk (cmd.extractLsb' 0 32)

/-- The mnemonic of a command, letter for letter as R34 has it. -/
def Instr.mnemonic : Instr → String
  | .crcInit => "CRC_INIT"
  | .crcByte _ => "CRC_BYTE"
  | .crcWord _ => "CRC_WORD"
  | .crcRead => "CRC_READ"
  | .crcCheck _ => "CRC_CHECK"
  | .tcDecode _ => "TC_DECODE"

end Sys2Proof
end

