-- ==== Sys2Proof/Decode.lean ====
section
/-! DEFINITION. Decoding a command word (30_encoding.md R32, R35, R36), total on all 2^40 words, every illegal word rejected by
name; the encoder (R33, R34, R43); and the five-byte form of a command word (R32). -/

namespace Sys2Proof

/-- The opcode field, `cmd[39:32]` (R32). -/
def opField (cmd : CmdWord) : Byte := cmd.extractLsb' 32 8

/-- The operand field, `cmd[31:0]` (R32). -/
def argField (cmd : CmdWord) : Word := cmd.extractLsb' 0 32

/-- Why a word is no command. The block answers all of them alike, with `ILLEGAL_COMMAND` (R37, R93); the names are the
model's (log entry 7). -/
inductive Rejection where
  /-- `op` is none of the six opcodes (R37). -/
  | undefinedOpcode
  /-- Format Z with `arg != 0` (R37). -/
  | nonzeroArg
  /-- Format B with `arg[31:8] != 0` (R37). -/
  | nonzeroHighArg
  /-- Fewer than five bytes: only the byte form can be cut short (R32). -/
  | truncated
  deriving DecidableEq, Repr

/-- The outcome of decoding: one of the six commands, or ILLEGAL (R36). -/
inductive Decoded where
  | legal (i : Instr)
  | illegal (why : Rejection)
  deriving DecidableEq, Repr

/-- `decode(cmd)`, the table of R36. -/
def decode (cmd : CmdWord) : Decoded :=
  let op := opField cmd
  let arg := argField cmd
  if op = 0x01 then
    if arg = 0 then .legal .crcInit else .illegal .nonzeroArg
  else if op = 0x02 then
    if arg.extractLsb' 8 24 = 0 then .legal (.crcByte (arg.extractLsb' 0 8)) else .illegal .nonzeroHighArg
  else if op = 0x03 then .legal (.crcWord arg)
  else if op = 0x04 then
    if arg = 0 then .legal .crcRead else .illegal .nonzeroArg
  else if op = 0x05 then .legal (.crcCheck arg)
  else if op = 0x10 then .legal (.tcDecode arg)
  else .illegal .undefinedOpcode

/-- A command word from its two fields, `{op, arg}` (R32). -/
def makeWord (op : Byte) (arg : Word) : CmdWord := op ++ arg

/-- The word of a command (R33, R34, R43). -/
def encode : Instr → CmdWord
  | .crcInit => makeWord 0x01 0
  | .crcByte b => makeWord 0x02 (b.setWidth 32)
  | .crcWord w => makeWord 0x03 w
  | .crcRead => makeWord 0x04 0
  | .crcCheck w => makeWord 0x05 w
  | .tcDecode w => makeWord 0x10 w

/-- A command word written as bytes: `op` first, then `bytes4(arg)` (R32). -/
def wordBytes (cmd : CmdWord) : List Byte := opField cmd :: Machine.bytes4 (argField cmd)

/-- Decoding a listing of bytes: the command of its first five bytes, and the bytes after them (R32). -/
def decodeBytes : List Byte → Decoded × List Byte
  | op :: b0 :: b1 :: b2 :: b3 :: rest => (decode (makeWord op (Machine.pack4 b0 b1 b2 b3)), rest)
  | short => (.illegal .truncated, short)

/-- What the decoder reads from a table word: bit 0 is the least significant bit of the ONE 40-bit command word, as `match`
and `mask` of the table number it (log entry 6). Bits above `nbits` are 0; a word that needs more than 40 bits is no command. -/
def decodeTableWord (nbits w : Nat) : Option Instr :=
  if w % 2 ^ nbits < 2 ^ 40 then
    match decode (BitVec.ofNat 40 (w % 2 ^ nbits)) with
    | .legal i => some i
    | .illegal _ => none
  else none

end Sys2Proof
end

