-- ==== Sys2Proof/Machine/Checksum.lean ====
section
/-! DEFINITION. The checksum variant CRC-32/ISO-HDLC: its parameters (00_scope.md R7), the byte update (40_crc.md R52), the
message functions (R53) and the entries of the table form (R56). -/

namespace Sys2Proof.Machine

/-- `POLY`, the generator polynomial in normal form (R7). -/
def poly : Word := 0x04C11DB7

/-- `POLY_R`, the same bit-reflected, used by the shift-right algorithm (R7). -/
def polyR : Word := 0xEDB88320

/-- `INIT` (R7). -/
def initReg : Word := 0xFFFFFFFF

/-- `XOROUT` (R7). -/
def xorOut : Word := 0xFFFFFFFF

/-- `RESIDUE` (R7, R59). -/
def residue : Word := 0xDEBB20E3

/-- `crc_step1(c)` (R52). -/
def crcStep1 (c : Word) : Word := (c >>> 1) ^^^ (if c.getLsbD 0 then polyR else 0)

/-- `crc_step1` applied `n` times. -/
def crcSteps : Nat → Word → Word
  | 0, c => c
  | n + 1, c => crcSteps n (crcStep1 c)

/-- `crc_upd8(c, b)`: the byte enters at bits 7:0, then eight steps (R52). -/
def crcUpd8 (c : Word) (b : Byte) : Word := crcSteps 8 (c ^^^ b.setWidth 32)

/-- The fold of `crc_upd8` over a byte sequence from a given register value (R53, R54). -/
def crcFrom (c : Word) (s : List Byte) : Word := s.foldl crcUpd8 c

/-- `CRCREG(s)` (R53). -/
def crcReg (s : List Byte) : Word := crcFrom initReg s

/-- `CRC32(s)` (R53). -/
def crc32 (s : List Byte) : Word := crcReg s ^^^ xorOut

/-- `CRCREG0(s)`: the fold started from zero (R57). -/
def crcReg0 (s : List Byte) : Word := crcFrom 0 s

/-- The table entry `T[i]`: eight steps applied to `zext_32(i)` (R56). -/
def tableEntry (i : Byte) : Word := crcSteps 8 (i.setWidth 32)

end Sys2Proof.Machine
end

