-- ==== Sys2Proof/Config.lean ====
section
/-! DEFINITION. What one block fixes and the spec leaves open. -/

namespace Sys2Proof

/-- `POWERUP_CRC` (R8, R111, D8, U1): what `crc_r` holds from power-up to the first reset or `CRC_INIT`. One fixed 32-bit
value per power-up and nothing else is known of it: no body, so no proof can see a value. Statements about a block that was
not reset are quantified over it (log entry 4). -/
opaque Config.powerupCrc : Word

end Sys2Proof
end

