-- ==== Sys2Proof/Machine/State.lean ====
section
/-! DEFINITION. The state of the block (10_state.md R10, R18 and section 3), the reasons a step can stop, and the state right
after reset (70_reset_and_hazards.md R110). -/

namespace Sys2Proof.Machine

/-- A response: the status code and the data of the 40-bit response word (30_encoding.md R40). -/
structure Response where
  code : Byte
  data : Word
  deriving DecidableEq, Repr

/-- What the host drives on the input ports at one rising clock edge (10_state.md section 3): `rst`, `cmd_valid`, `cmd`. -/
structure Cycle where
  rst : Bool
  cmdValid : Bool
  cmd : CmdWord
  deriving DecidableEq, Repr

/-- Reasons the machine stops with a fault: there are none. Every failure the spec names is a response (R90), every command
completes (R116) and the block never halts (R121), so nobody raises one; an empty type is the safe and exact choice (log
entry 8). -/
inductive Fault where
  deriving DecidableEq, Repr

/-- Reasons a step has no meaning. -/
inductive Refusal where
  /-- Raised by an arm of `exec` whose instruction has no meaning yet; safe. No arm raises it: every command is modelled. -/
  | notModelled (mnemonic : String)
  deriving DecidableEq, Repr

/-- The state: the one register of the block, the ghost message, and the two sides of its ports. -/
structure State where
  /-- `crc_r`, the running remainder before the final complement (R10). -/
  crcR : Word
  /-- Ghost (R18, log entry 3), not hardware: the bytes fed since the last reset or `CRC_INIT`; `none` before the first of
  these, where the spec gives it no meaning. No hardware field depends on it. -/
  msg : Option (List Byte)
  /-- The response port in the cycle that ended at the last edge: `some` exactly where `rsp_valid` was 1 (section 3, log
  entry 2). No step reads it. -/
  rsp : Option Response
  /-- What the host drives at the coming edges, the next first (log entry 1). After the last entry the host stays idle. -/
  inputs : List Cycle
  deriving DecidableEq, Repr

/-- The block right after a reset edge: `crc_r` = `0xFFFFFFFF`, empty message, `rsp_valid` = 0 (R110, R18); nothing presented
yet (log entry 1). -/
def State.reset : State :=
  { crcR := 0xFFFFFFFF, msg := some [], rsp := none, inputs := [] }

/-- The block at power-up, before any reset: `crc_r` holds `POWERUP_CRC`, taken as an arbitrary argument, and the message has
no meaning (R111, R18). -/
def State.powerUp (powerupCrc : Word) : State :=
  { crcR := powerupCrc, msg := none, rsp := none, inputs := [] }

/-- The block of this configuration at power-up (R8, R111). -/
def State.powerUpConfigured : State := State.powerUp Config.powerupCrc

end Sys2Proof.Machine
end

