-- ==== Sys2Proof/Machine/Ops.lean ====
section
/-! DEFINITION. The named operations of the block over its state: the input and output ports, feeding the checksum generator,
responding and failing, and the reset and idle edges. There is no memory and no register file to operate on (R10, R20), and
a failure is a response (60_exceptions.md R90): `raise` is the whole of taking one, and there is no return from it (R99). -/

namespace Sys2Proof.Machine

/-- The response word `rsp = {code, data}` (30_encoding.md R40). -/
def Response.word (r : Response) : RspWord := r.code ++ r.data

/-- The output `rsp_valid` of the cycle that ended at the last edge (10_state.md section 3). -/
def State.rspValid (s : State) : Bool := s.rsp.isSome

/-- The derived view `crc_out`: the checksum so far, `crc_r ^ 0xFFFFFFFF` (10_state.md R12). -/
def State.crcOut (s : State) : Word := s.crcR ^^^ xorOut

/-! ### Input ports -/

/-- An edge at which the host presents nothing: `rst` = 0, `cmd_valid` = 0. -/
def Cycle.idle : Cycle := { rst := false, cmdValid := false, cmd := 0 }

/-- An edge at which the host presents a command word: `rst` = 0, `cmd_valid` = 1. -/
def Cycle.command (cmd : CmdWord) : Cycle := { rst := false, cmdValid := true, cmd := cmd }

/-- What an edge asks of the block (R13, R110). -/
inductive Presented where
  | reset
  | idle
  | command (cmd : CmdWord)
  deriving DecidableEq, Repr

/-- Reset has priority over a command in the same cycle (R110, U9); without `cmd_valid` the word is ignored (R13, U6). -/
def Cycle.presented (c : Cycle) : Presented :=
  if c.rst then .reset else if c.cmdValid then .command c.cmd else .idle

/-- What the host drives at the coming edge; a host with nothing left to present is idle (R121, R123, log entry 1). -/
def State.currentCycle (s : State) : Cycle := s.inputs.headD Cycle.idle

/-- The state with the coming edge's port values consumed. -/
def State.advance (s : State) : State := { s with inputs := s.inputs.tail }

/-- The host presents this word at the coming edge, ahead of what it was going to present. -/
def presentNext (s : State) (cmd : CmdWord) : State := { s with inputs := Cycle.command cmd :: s.inputs }

/-! ### Feeding the generator -/

/-- Start a new message: `crc_r <- 0xFFFFFFFF`, the message is empty (R60, R18). -/
def startMessage (s : State) : State := { s with crcR := initReg, msg := some [] }

/-- Feed one byte: `crc_r <- crc_upd8(crc_r, b)`, the message grows by `b` (R61, R18). -/
def feedByte (s : State) (b : Byte) : State :=
  { s with crcR := crcUpd8 s.crcR b, msg := s.msg.map (· ++ [b]) }

/-- Feed a byte sequence, first byte first (R21, R62). -/
def feedBytes (s : State) (bs : List Byte) : State := bs.foldl feedByte s

/-! ### Responses and failures -/

/-- `OK` (R41). -/
def codeOk : Byte := 0x00

/-- `respond(code, data)` (R9, R40). -/
def respond (s : State) (code : Byte) (data : Word) : State := { s with rsp := some { code := code, data := data } }

/-- The failure kinds the block can report (60_exceptions.md R92). -/
inductive FailureKind where
  /-- `INVALID_TYPE_CODE`, raised by `TC_DECODE` only. -/
  | invalidTypeCode
  /-- `INVALID_CHECKSUM`, raised by `CRC_CHECK` only. -/
  | invalidChecksum
  /-- `ILLEGAL_COMMAND`, raised by any word that decodes to ILLEGAL. -/
  | illegalCommand
  deriving DecidableEq, Repr

/-- The code of each failure kind (R41). -/
def FailureKind.code : FailureKind → Byte
  | .invalidTypeCode => 0x01
  | .invalidChecksum => 0x02
  | .illegalCommand => 0x03

/-- `raise <Kind>(data)`: respond with the code of the kind, write no state, end the command (R9, R90, R91). -/
def raise (s : State) (k : FailureKind) (data : Word) : State := respond s k.code data

/-- An illegal command word: `respond(0x03, 0x00000000)`, nothing written (R93). -/
def answerIllegal (s : State) : State := raise s .illegalCommand 0

/-- The reset edge: `crc_r <- 0xFFFFFFFF`, the message is empty, no response is given (R110, R18). -/
def resetEdge (s : State) : State := { startMessage s with rsp := none }

/-- An edge with no command and no reset: nothing changes and `rsp_valid` = 0 (R13). -/
def idleEdge (s : State) : State := { s with rsp := none }

end Sys2Proof.Machine
end

