-- ==== Sys2Proof/Machine/ChecksumFamily.lean ====
section
/-! DEFINITION. The checksum family: `CRC_INIT`, `CRC_BYTE`, `CRC_WORD`, `CRC_READ`, `CRC_CHECK` (40_crc.md R60 to R64). -/

namespace Sys2Proof.Machine

/-- `CRC_INIT`: start a new message, answer OK and 0 (R60). -/
def execCrcInit (s : State) : Host.Outcome State Fault Refusal :=
  .next (respond (startMessage s) codeOk 0)

/-- `CRC_BYTE b`: feed one byte, answer OK and the checksum so far, this byte included (R61). -/
def execCrcByte (b : Byte) (s : State) : Host.Outcome State Fault Refusal :=
  let n := feedByte s b
  .next (respond n codeOk n.crcOut)

/-- `CRC_WORD w`: feed four bytes, most significant first, one response (R62, R29). -/
def execCrcWord (w : Word) (s : State) : Host.Outcome State Fault Refusal :=
  let n := feedBytes s (bytes4 w)
  .next (respond n codeOk n.crcOut)

/-- `CRC_READ`: answer OK and the checksum so far, write nothing (R63). -/
def execCrcRead (s : State) : Host.Outcome State Fault Refusal :=
  .next (respond s codeOk s.crcOut)

/-- `CRC_CHECK w`: compare all 32 bits of the checksum so far with the stored checksum `w`; a difference fails with the
recomputed checksum as data; write nothing (R64). -/
def execCrcCheck (w : Word) (s : State) : Host.Outcome State Fault Refusal :=
  if s.crcOut = w then .next (respond s codeOk s.crcOut)
  else .next (raise s .invalidChecksum s.crcOut)

end Sys2Proof.Machine
end

