-- ==== Sys2Proof/Machine/Flags.lean ====
section
/-! DEFINITION. The predicates of a type code (41_typecode.md R71 to R78) and the data word in which `TC_DECODE` delivers them
(R81). The block keeps no flag between commands (10_state.md R15): these are all the flag computations it has. -/

namespace Sys2Proof.Machine

/-- `FLAG_MASK`, bit 5 of a type-code byte counted from the least significant (R6, R9). -/
def flagMask : Byte := 0x20

/-- `is_upper(b)` (R72). -/
def isUpper (b : Byte) : Bool := 0x41 ≤ b && b ≤ 0x5A

/-- `is_lower(b)` (R72). -/
def isLower (b : Byte) : Bool := 0x61 ≤ b && b ≤ 0x7A

/-- `is_alpha(b)` (R71, R72). -/
def isAlpha (b : Byte) : Bool := isUpper b || isLower b

/-- `tc_parse_ok(w)` (R73). -/
def tcParseOk (w : Word) : Bool := isAlpha (byte0 w) && isAlpha (byte1 w) && isAlpha (byte2 w) && isAlpha (byte3 w)

/-- `critical`: byte 0 is uppercase (R74). -/
def critical (w : Word) : Bool := isUpper (byte0 w)

/-- `public`: byte 1 is uppercase (R75). -/
def isPublic (w : Word) : Bool := isUpper (byte1 w)

/-- `reserved`: byte 2 is uppercase, that is the reserved BIT is clear (R76, 90_conflicts.md C4). -/
def reserved (w : Word) : Bool := isUpper (byte2 w)

/-- `safe_to_copy`: byte 3 is lowercase (R77). -/
def safeToCopy (w : Word) : Bool := isLower (byte3 w)

/-- `is_valid`, "valid for general use" (R78). -/
def isValid (w : Word) : Bool := tcParseOk w && isUpper (byte2 w)

/-- The flag bit of a type-code byte is set, `t[5] == 1` (R81). -/
def flagBit (t : Byte) : Bool := t &&& flagMask != 0

/-- The response data of a type code that parses: `{27 zero bits, VALID, SAFE_TO_COPY, RESERVED, PUBLIC, CRITICAL}`, each bit
read from bit 5 of its byte, `VALID` a copy of `RESERVED` (R81). -/
def tcFlagData (w : Word) : Word :=
  let cri := !flagBit (byte0 w)
  let pub := !flagBit (byte1 w)
  let res := !flagBit (byte2 w)
  let saf := flagBit (byte3 w)
  (0 : BitVec 27) ++ BitVec.ofBool res ++ BitVec.ofBool saf ++ BitVec.ofBool res ++ BitVec.ofBool pub ++ BitVec.ofBool cri

end Sys2Proof.Machine
end

