-- ==== Sys2Proof/Machine/TypeCodeFamily.lean ====
section
/-! DEFINITION. The type-code family: `TC_DECODE` (41_typecode.md R81). -/

namespace Sys2Proof.Machine

/-- `TC_DECODE w`: a type code of four letters answers OK and its five predicates, any other fails with data 0; no state is
read or written (R81). -/
def execTcDecode (w : Word) (s : State) : Host.Outcome State Fault Refusal :=
  if tcParseOk w then .next (respond s codeOk (tcFlagData w))
  else .next (raise s .invalidTypeCode 0)

end Sys2Proof.Machine
end

