-- ==== Sys2Proof/Machine/Dispatch.lean ====
section
/-! DEFINITION. One arm per command: the direct call of its meaning. -/

namespace Sys2Proof.Machine

def exec (i : Instr) (s : State) : Host.Outcome State Fault Refusal :=
  match i with
  | .crcInit => Sys2Proof.Machine.execCrcInit s
  | .crcByte b => Sys2Proof.Machine.execCrcByte b s
  | .crcWord w => Sys2Proof.Machine.execCrcWord w s
  | .crcRead => Sys2Proof.Machine.execCrcRead s
  | .crcCheck w => Sys2Proof.Machine.execCrcCheck w s
  | .tcDecode w => Sys2Proof.Machine.execTcDecode w s

end Sys2Proof.Machine
end

