-- ==== Sys2Proof/Machine/Step.lean ====
section
/-! DEFINITION. One step of the machine: one rising clock edge (10_state.md R13, 70_reset_and_hazards.md R110, R122). -/

namespace Sys2Proof.Machine

/-- One rising edge. `rst` = 1 resets; else a presented word is decoded (R36) and its command executed or, if illegal,
answered `ILLEGAL_COMMAND` (R93); else nothing changes (R13). -/
def step (s : State) : Host.Outcome State Fault Refusal :=
  match s.currentCycle.presented with
  | .reset => .next (resetEdge s.advance)
  | .idle => .next (idleEdge s.advance)
  | .command cmd =>
    match decode cmd with
    | .legal i => exec i s.advance
    | .illegal _ => .next (answerIllegal s.advance)

/-- The host presents this table word at the coming edge (log entries 5 and 6): the very next step executes it. -/
def State.withFetchWord (s : State) (nbits w : Nat) : State := presentNext s (BitVec.ofNat 40 (w % 2 ^ nbits))

end Sys2Proof.Machine
end

