-- ==== Sys2Proof/Machine/Assembler.lean ====
section
/-! DEFINITION. The notation in which listings write commands: assembler syntax (30_encoding.md R43) and the pseudo-commands
`CRC_STR` and `CRC_SEG` (R44), as abstract lines and as text. It is no part of the block: it says which words a listing
stands for. Text conventions R43 does not spell out are in log entries
9 and 11. -/

namespace Sys2Proof.Machine

/-- One line of a listing, its operands as written: numbers and character codes without a bound (R43, R44). -/
inductive AsmLine where
  | crcInit
  | crcByte (n : Nat)
  | crcWord (n : Nat)
  | crcWordText (cs : List Nat)
  | crcRead
  | crcCheck (n : Nat)
  | tcDecode (n : Nat)
  | tcDecodeText (cs : List Nat)
  | word (n : Nat)
  | crcStr (cs : List Nat)
  | crcSeg (tc payload : List Nat)
  deriving DecidableEq, Repr

/-- Why a line is an assembly error (R43). -/
inductive AsmError where
  /-- The line does not have the form `MNEMONIC` or `MNEMONIC operand`. -/
  | syntaxError
  /-- The operand is outside its range. -/
  | operandOutOfRange
  deriving DecidableEq, Repr

/-- Every character has a code of 0 to 255 (R43, R44). -/
def codesFit (cs : List Nat) : Bool := cs.all (· ≤ 255)

/-- Exactly four characters (R43). -/
def fourCodes (cs : List Nat) : Bool := cs.length == 4

/-- Every character is an ASCII character, code 0 to 127 (R43). -/
def asciiCodes (cs : List Nat) : Bool := cs.all (· ≤ 127)

/-- The operand ranges of R43 and R44. -/
def AsmLine.inRange : AsmLine → Bool
  | .crcInit => true
  | .crcByte n => n ≤ 255
  | .crcWord n => n < 2 ^ 32
  | .crcWordText cs => fourCodes cs && asciiCodes cs
  | .crcRead => true
  | .crcCheck n => n < 2 ^ 32
  | .tcDecode n => n < 2 ^ 32
  | .tcDecodeText cs => fourCodes cs && codesFit cs
  | .word n => n < 2 ^ 40
  | .crcStr cs => codesFit cs
  | .crcSeg tc payload => fourCodes tc && asciiCodes tc && codesFit payload

/-- The bytes of a text operand: the character codes, first character first (R9). -/
def textBytes (cs : List Nat) : List Byte := cs.map (BitVec.ofNat 8)

/-- A four-character text operand packed, `pack4("abcd")` (R43). -/
def packText (cs : List Nat) : Word := (packHead (textBytes cs)).getD 0

/-- The expansion of `CRC_STR` (R44). -/
def expandStr (bs : List Byte) : List Instr := bs.map .crcByte

/-- The expansion of `CRC_SEG` (R44). -/
def expandSeg (tc : Word) (payload : List Byte) : List Instr := .crcInit :: .crcWord tc :: expandStr payload

/-- The words of a line whose operands are in range (R43, R44). -/
def AsmLine.words : AsmLine → List CmdWord
  | .crcInit => [encode .crcInit]
  | .crcByte n => [encode (.crcByte (BitVec.ofNat 8 n))]
  | .crcWord n => [encode (.crcWord (BitVec.ofNat 32 n))]
  | .crcWordText cs => [encode (.crcWord (packText cs))]
  | .crcRead => [encode .crcRead]
  | .crcCheck n => [encode (.crcCheck (BitVec.ofNat 32 n))]
  | .tcDecode n => [encode (.tcDecode (BitVec.ofNat 32 n))]
  | .tcDecodeText cs => [encode (.tcDecode (packText cs))]
  | .word n => [BitVec.ofNat 40 n]
  | .crcStr cs => (expandStr (textBytes cs)).map encode
  | .crcSeg tc payload => (expandSeg (packText tc) (textBytes payload)).map encode

/-- Assembling a line: an operand outside its range is an assembly error, never an illegal word (R43). -/
def assembleLine (l : AsmLine) : Except AsmError (List CmdWord) :=
  if l.inRange then .ok l.words else .error .operandOutOfRange

/-! ### Text -/

/-- An operand as written: a number, a character literal or a character string. -/
inductive AsmOperand where
  | number (n : Nat)
  | char (c : Nat)
  | text (cs : List Nat)
  deriving DecidableEq, Repr

/-- Space or tab. -/
def isBlank (c : Char) : Bool := c == ' ' || c == '\t'

/-- The sixteen digits of R9's numbers, each at the place of its value. -/
def digitChars : List Char := "0123456789abcdef".toList

/-- The value of a digit: its place among the digits, a hexadecimal letter in either case (log entry 9). -/
def digitValue (c : Char) : Option Nat := digitChars.idxOf? c.toLower

/-- The code of a character of a listing: its Unicode scalar value. For ASCII this is the code R9 means; for a character above
127, whose code the spec does not give though R43 and R44 admit codes to 255, it is the model's choice (log entry 11). -/
def charCode (c : Char) : Nat := c.toNat

/-- Digits in a base, most significant first; none where a character is no digit of the base. -/
def readDigits (base : Nat) : Nat → List Char → Option Nat
  | acc, [] => some acc
  | acc, c :: cs =>
    match digitValue c with
    | some d => if d < base then readDigits base (acc * base + d) cs else none
    | none => none

/-- A number: `0x` hexadecimal, `0b` binary, bare decimal (R9). -/
def readNumber : List Char → Option Nat
  | '0' :: 'x' :: c :: cs => readDigits 16 0 (c :: cs)
  | '0' :: 'b' :: c :: cs => readDigits 2 0 (c :: cs)
  | c :: cs => readDigits 10 0 (c :: cs)
  | [] => none

/-- A token ends at a blank, a comma or a comment. -/
def endsToken (c : Char) : Bool := isBlank c || c == ',' || c == ';'

/-- One operand at the head of the text, and the text after it; a character stands for its `charCode` (log entry 11). -/
def readOperand (cs : List Char) : Option (AsmOperand × List Char) :=
  match cs with
  | '\'' :: c :: '\'' :: rest => some (.char (charCode c), rest)
  | '"' :: rest =>
    match rest.dropWhile (· != '"') with
    | _ :: after => some (.text ((rest.takeWhile (· != '"')).map charCode), after)
    | [] => none
  | _ => (readNumber (cs.takeWhile (! endsToken ·))).map fun n => (.number n, cs.dropWhile (! endsToken ·))

/-- Nothing but blanks up to the end of the line or a comment, which `;` opens (R43). -/
def atLineEnd (cs : List Char) : Bool :=
  match cs.dropWhile isBlank with
  | [] => true
  | c :: _ => c == ';'

/-- The operands of a line: none, one, or several separated by commas (R43, R44). -/
def readOperands : Nat → List Char → Option (List AsmOperand)
  | 0, _ => none
  | fuel + 1, cs =>
    match readOperand (cs.dropWhile isBlank) with
    | none => none
    | some (o, rest) =>
      match rest.dropWhile isBlank with
      | ',' :: more => (readOperands fuel more).map (o :: ·)
      | after => if atLineEnd after then some [o] else none

/-- A mnemonic with its operands, as a line (R43, R44). -/
def lineOf (mnemonic : List Char) (os : List AsmOperand) : Option AsmLine :=
  if mnemonic = "CRC_INIT".toList then
    match os with | [] => some .crcInit | _ => none
  else if mnemonic = "CRC_BYTE".toList then
    match os with | [.number n] => some (.crcByte n) | [.char c] => some (.crcByte c) | _ => none
  else if mnemonic = "CRC_WORD".toList then
    match os with | [.number n] => some (.crcWord n) | [.text cs] => some (.crcWordText cs) | _ => none
  else if mnemonic = "CRC_READ".toList then
    match os with | [] => some .crcRead | _ => none
  else if mnemonic = "CRC_CHECK".toList then
    match os with | [.number n] => some (.crcCheck n) | _ => none
  else if mnemonic = "TC_DECODE".toList then
    match os with | [.number n] => some (.tcDecode n) | [.text cs] => some (.tcDecodeText cs) | _ => none
  else if mnemonic = ".word".toList then
    match os with | [.number n] => some (.word n) | _ => none
  else if mnemonic = "CRC_STR".toList then
    match os with | [.text cs] => some (.crcStr cs) | _ => none
  else if mnemonic = "CRC_SEG".toList then
    match os with | [.text tc, .text payload] => some (.crcSeg tc payload) | _ => none
  else none

/-- One line of text: no command where it is blank or only a comment (R43). -/
def readLine (cs : List Char) : Except AsmError (Option AsmLine) :=
  let line := cs.dropWhile isBlank
  if atLineEnd line then .ok none
  else
    let mnemonic := line.takeWhile (! endsToken ·)
    let rest := line.dropWhile (! endsToken ·)
    match if atLineEnd rest then some [] else readOperands rest.length rest with
    | none => .error .syntaxError
    | some os =>
      match lineOf mnemonic os with
      | some l => .ok (some l)
      | none => .error .syntaxError

/-- A listing, line by line: the words of all its lines in order, or its first error. -/
def assembleText : List (List Char) → Except AsmError (List CmdWord)
  | [] => .ok []
  | cs :: more =>
    match readLine cs with
    | .error e => .error e
    | .ok none => assembleText more
    | .ok (some l) =>
      match assembleLine l with
      | .error e => .error e
      | .ok ws =>
        match assembleText more with
        | .error e => .error e
        | .ok rest => .ok (ws ++ rest)

end Sys2Proof.Machine
end

