-- ==== Sys2Proof/Machine/HostSequences.lean ====
section
/-! DEFINITION. The host's side as far as the spec fixes it: the layout of a segment and which of its bytes are the message
(20_memory.md R22 to R24, R26), and the command sequences for a new segment and for verifying one (40_crc.md R66, R67). -/

namespace Sys2Proof.Machine

/-- The message of a segment: the type code's bytes, then the payload (R22). -/
def segmentMessage (tc : Word) (payload : List Byte) : List Byte := bytes4 tc ++ payload

/-- A serialized segment: `length ++ type_code ++ payload ++ checksum`, the two 32-bit fields big-endian (R5, R26). -/
def segmentBytes (length tc : Word) (payload : List Byte) (checksum : Word) : List Byte :=
  bytes4 length ++ bytes4 tc ++ payload ++ bytes4 checksum

/-- `bytes[4..8+length]`, the message inside a serialized segment (R24). -/
def messageSlice (bytes : List Byte) (length : Nat) : List Byte := (bytes.drop 4).take (4 + length)

/-- The packed type code of a serialized segment, `pack4(bytes[4..8])` (R67). -/
def segmentTypeCode (bytes : List Byte) : Option Word := packHead (bytes.drop 4)

/-- The packed stored checksum of a serialized segment, `pack4(bytes[8+length .. 12+length])` (R24, R67). -/
def segmentChecksum (bytes : List Byte) (length : Nat) : Option Word := packHead (bytes.drop (8 + length))

/-- A command that feeds the generator (R21): the bytes it feeds, in order; none for any other command. -/
def fedBytes : Instr → Option (List Byte)
  | .crcByte b => some [b]
  | .crcWord w => some (bytes4 w)
  | .crcInit => none
  | .crcRead => none
  | .crcCheck _ => none
  | .tcDecode _ => none

/-- The commands that compute the checksum of a new segment (R66). -/
def newSegmentCommands (tc : Word) (payload : List Byte) : List Instr :=
  .crcInit :: .crcWord tc :: payload.map .crcByte ++ [.crcRead]

/-- The commands that verify a serialized segment, less the `TC_DECODE` with which the host begins (R67). -/
def verifyCommands (tc : Word) (payload : List Byte) (stored : Word) : List Instr :=
  .crcInit :: .crcWord tc :: payload.map .crcByte ++ [.crcCheck stored]

/-- The two parts of verifying a serialized segment of `12 + length` bytes (R67): the `TC_DECODE` the host issues first, and
the commands it issues unless the answer is `INVALID_TYPE_CODE`. None where the slice is too short to hold them. -/
def verifySegment (bytes : List Byte) (length : Nat) : Option (Instr × List Instr) :=
  match segmentTypeCode bytes, segmentChecksum bytes length with
  | some tc, some stored =>
    some (.tcDecode tc, verifyCommands tc ((bytes.drop 8).take length) stored)
  | _, _ => none

/-- The host presents these words one after another at the coming edges, ahead of what it was going to present. -/
def presentWords (s : State) (cmds : List CmdWord) : State := { s with inputs := cmds.map Cycle.command ++ s.inputs }

/-- The host presents these commands one after another at the coming edges. -/
def presentCommands (s : State) (is : List Instr) : State := presentWords s (is.map encode)

end Sys2Proof.Machine
end

