-- ==== Sys2Proof/Safety.lean ====
section
/-! DEFINITION. The terms in which statements speak of runs: what a run shows (70_reset_and_hazards.md R121), the invariant of
the model (10_state.md R18, 30_encoding.md R41), and which commands and words touch the register (R11). -/

namespace Sys2Proof.Machine

/-- `n` steps from a state: the responses they give, in order, and the state they end in (R121); none where a step stops. -/
def observe : Nat → State → Option (List Response × State)
  | 0, s => some ([], s)
  | n + 1, s =>
    match step s with
    | .next t => (observe n t).map fun (rs, u) => (t.rsp.toList ++ rs, u)
    | .fault _ => none
    | .refused _ => none

/-- The invariant: where the message has a meaning the register holds its remainder (R18), and a response carries one of the
four codes (R41). -/
structure Inv (s : State) : Prop where
  /-- `crc_r == CRCREG(msg)` (R18). -/
  register : ∀ m, s.msg = some m → s.crcR = crcReg m
  /-- `code <= 0x03` (R41). -/
  status : ∀ r, s.rsp = some r → r.code ≤ 0x03

/-- The commands that write `crc_r` (R11). -/
def writesCrc : Instr → Bool
  | .crcInit => true
  | .crcByte _ => true
  | .crcWord _ => true
  | .crcRead => false
  | .crcCheck _ => false
  | .tcDecode _ => false

/-- The commands that read `crc_r` (R11). -/
def readsCrc : Instr → Bool
  | .crcInit => false
  | .crcByte _ => true
  | .crcWord _ => true
  | .crcRead => true
  | .crcCheck _ => true
  | .tcDecode _ => false

/-- A word that leaves `crc_r` alone when presented: a command that does not write it, or an illegal word (R11, R93). -/
def keepsCrc (cmd : CmdWord) : Bool :=
  match decode cmd with
  | .legal i => !writesCrc i
  | .illegal _ => true

/-- What one presented word does to the message of the host (R18): `CRC_INIT` empties it, a feeding command extends it by the
bytes it feeds, every other word, legal or not, leaves it. -/
def messageStep (m : List Byte) (cmd : CmdWord) : List Byte :=
  match decode cmd with
  | .legal .crcInit => []
  | .legal i => m ++ (fedBytes i).getD []
  | .illegal _ => m

/-- The message a list of feeding commands feeds (R21). -/
def fedMessage (fs : List Instr) : List Byte := fs.flatMap fun i => (fedBytes i).getD []

/-- Every command of the list feeds the generator (R21): `CRC_BYTE` and `CRC_WORD` mixed freely. -/
def allFeed (fs : List Instr) : Bool := fs.all fun i => (fedBytes i).isSome

end Sys2Proof.Machine
end

