-- ==== Sys2Proof/Certificates/Slice0/Obligations.lean ====
section
/-! DEFINITION. The statements for the provers, one `def Obligations.<Name> : Prop` each, from the numbered rules of spec/.
`presentNext s cmd` is `s` with the host presenting `cmd` at the coming edge; `step` is one rising edge. -/

open Sys2Proof Sys2Proof.Machine

/-! ### A step, decoding and encoding -/

/-- A STEP RUNS THE DECODED COMMAND: where the host presents, without reset, a word that decodes to `i`, the step is `exec i`
at that state with the edge's port values consumed (10_state.md R13, first sentence). -/
def Obligations.StepRunsDecodedCommand : Prop :=
  ∀ (s : State) (cmd : CmdWord) (rest : List Cycle) (i : Instr),
    s.inputs = { rst := false, cmdValid := true, cmd := cmd } :: rest → decode cmd = .legal i →
      step s = exec i { s with inputs := rest }

/-- Words written out from the encodings of 30_encoding.md R34 decode to the commands they stand for, one of each row. -/
def Obligations.TableWordsDecode : Prop :=
  decode 0x0100000000 = .legal .crcInit ∧
  decode 0x0200000061 = .legal (.crcByte 0x61) ∧
  decode 0x0352755374 = .legal (.crcWord 0x52755374) ∧
  decode 0x0400000000 = .legal .crcRead ∧
  decode 0x05AE426082 = .legal (.crcCheck 0xAE426082) ∧
  decode 0x1052755374 = .legal (.tcDecode 0x52755374)

/-- 10_state.md R13, the step function: with `rst` = 0 and `cmd_valid` = 1 the edge executes the command in `cmd` (the rule of
its decoding, an illegal word being answered by R93); with both 0 nothing changes and `rsp_valid` = 0; the block accepts a
command in every cycle; the new register and the response depend on nothing but `crc_r` and `cmd`; and `rsp_valid` equals
`cmd_valid & ~rst` (section 3). -/
def Obligations.StepFunctionOfPorts : Prop :=
  (∀ (s : State) (c : Cycle) (rest : List Cycle), s.inputs = c :: rest → c.rst = false →
    (c.cmdValid = true → step s =
      match decode c.cmd with
      | .legal i => exec i { s with inputs := rest }
      | .illegal _ => .next { s with inputs := rest, rsp := some ⟨0x03, 0x00000000⟩ }) ∧
    (c.cmdValid = false → step s = .next { s with inputs := rest, rsp := none })) ∧
  (∀ (s : State) (cmd : CmdWord), ∃ t r, step (presentNext s cmd) = .next t ∧ t.rsp = some r ∧ t.inputs = s.inputs) ∧
  (∀ (s t s' t' : State) (cmd : CmdWord), s.crcR = t.crcR → step (presentNext s cmd) = .next s' →
    step (presentNext t cmd) = .next t' → s'.crcR = t'.crcR ∧ s'.rsp = t'.rsp) ∧
  (∀ (s t : State) (c : Cycle) (rest : List Cycle), s.inputs = c :: rest → step s = .next t →
    t.rspValid = (c.cmdValid && !c.rst))

/-- 30_encoding.md R36, the decoding table on the fields of a word; every word has these two fields, the lists of conditions
exclude each other, the last line takes all that is left, and the step is the rule of the outcome. -/
def Obligations.DecodingTable : Prop :=
  (∀ cmd : CmdWord, cmd = makeWord (cmd.extractLsb 39 32) (cmd.extractLsb 31 0)) ∧
  ∀ (op : Byte) (arg : Word),
    (op = 0x01 → arg = 0 → decode (makeWord op arg) = .legal .crcInit) ∧
    (op = 0x02 → arg.extractLsb 31 8 = 0 → decode (makeWord op arg) = .legal (.crcByte (arg.extractLsb 7 0))) ∧
    (op = 0x03 → decode (makeWord op arg) = .legal (.crcWord arg)) ∧
    (op = 0x04 → arg = 0 → decode (makeWord op arg) = .legal .crcRead) ∧
    (op = 0x05 → decode (makeWord op arg) = .legal (.crcCheck arg)) ∧
    (op = 0x10 → decode (makeWord op arg) = .legal (.tcDecode arg)) ∧
    (¬ (op = 0x01 ∧ arg = 0) → ¬ (op = 0x02 ∧ arg.extractLsb 31 8 = 0) → op ≠ 0x03 → ¬ (op = 0x04 ∧ arg = 0) →
      op ≠ 0x05 → op ≠ 0x10 → ∃ why, decode (makeWord op arg) = .illegal why) ∧
    (∀ s : State, step (presentNext s (makeWord op arg)) =
      match decode (makeWord op arg) with
      | .legal i => exec i s
      | .illegal _ => .next { s with rsp := some ⟨0x03, 0x00000000⟩ })

/-- 30_encoding.md R34, the opcode map: six rows; a word selects a row exactly when it decodes to a command of that row; no
word selects two rows; a word whose `op` is no row's `op` is illegal. -/
def Obligations.OpcodeMapSelects : Prop :=
  opcodeTable.length = 6 ∧
  (∀ r ∈ opcodeTable, ∀ cmd : CmdWord, cmd &&& r.maskBits = r.matchBits ↔
    ∃ i, decode cmd = .legal i ∧ i.mnemonic = r.mnemonic) ∧
  (∀ r ∈ opcodeTable, ∀ q ∈ opcodeTable, ∀ cmd : CmdWord,
    cmd &&& r.maskBits = r.matchBits → cmd &&& q.maskBits = q.matchBits → r = q) ∧
  (∀ cmd : CmdWord, (∀ r ∈ opcodeTable, cmd.extractLsb 39 32 ≠ r.op) → ∃ why, decode cmd = .illegal why)

/-- 30_encoding.md R37: a word is illegal exactly when its opcode is undefined or a must-be-zero bit of its format is set; the
all-zero and the all-ones word are illegal; an illegal word is answered `ILLEGAL_COMMAND` and changes nothing; no encoding is
without a defined behaviour. -/
def Obligations.IllegalWordsExactly : Prop :=
  (∀ cmd : CmdWord, (∃ why, decode cmd = .illegal why) ↔
    (cmd.extractLsb 39 32 ∉ [0x01, 0x02, 0x03, 0x04, 0x05, 0x10]) ∨
    ((cmd.extractLsb 39 32 = 0x01 ∨ cmd.extractLsb 39 32 = 0x04) ∧ cmd.extractLsb 31 0 ≠ 0) ∨
    (cmd.extractLsb 39 32 = 0x02 ∧ cmd.extractLsb 31 8 ≠ 0)) ∧
  (∃ why, decode 0x0000000000 = .illegal why) ∧ (∃ why, decode 0xFFFFFFFFFF = .illegal why) ∧
  (∀ (s : State) (cmd : CmdWord) (why : Rejection), decode cmd = .illegal why →
    step (presentNext s cmd) = .next { s with rsp := some ⟨0x03, 0x00000000⟩ }) ∧
  (∀ (s : State) (cmd : CmdWord), ∃ t, step (presentNext s cmd) = .next t)

/-- 60_exceptions.md R93: an illegal word is answered `respond(0x03, 0x00000000)` and writes nothing. -/
def Obligations.IllegalCommandWritesNothing : Prop :=
  ∀ (s : State) (cmd : CmdWord) (why : Rejection), decode cmd = .illegal why →
    step (presentNext s cmd) = .next { s with rsp := some ⟨0x03, 0x00000000⟩ }

/-- DECODE AND ENCODE AGREE: for every command with every operand, decoding its word gives it back, and so does decoding its
five bytes at the head of any listing (30_encoding.md sections 1 and 3). -/
def Obligations.DecodeOfEncode : Prop :=
  ∀ (i : Instr) (rest : List Byte),
    decode (encode i) = .legal i ∧ decodeBytes (wordBytes (encode i) ++ rest) = (.legal i, rest)

/-- Each legal word has one meaning and one spelling: the command it decodes to encodes back to it; a word is legal exactly
when it is well formed; and no two commands share a word (30_encoding.md section 1). -/
def Obligations.EncodeOfDecode : Prop :=
  (∀ (cmd : CmdWord) (i : Instr), decode cmd = .legal i → encode i = cmd) ∧
  (∀ cmd : CmdWord, wellFormed cmd = true ↔ ∃ i, decode cmd = .legal i) ∧
  (∀ i j : Instr, encode i = encode j → i = j)

/-! ### Byte order and the response word -/

/-- Packing and unpacking are inverse and big-endian, for the operands of `CRC_WORD` and `TC_DECODE` too (20_memory.md
section 3, R25): `CRC_WORD` feeds `s[0]` first, and `TC_DECODE` reads flag `k` from `s[k]`. -/
def Obligations.BigEndianPacking : Prop :=
  (∀ w : Word, bytes4 w = [w.extractLsb 31 24, w.extractLsb 23 16, w.extractLsb 15 8, w.extractLsb 7 0]) ∧
  (∀ b0 b1 b2 b3 : Byte, bytes4 (pack4 b0 b1 b2 b3) = [b0, b1, b2, b3]) ∧
  (∀ w : Word, packHead (bytes4 w) = some w) ∧
  pack4 0x52 0x75 0x53 0x74 = 0x52755374 ∧
  (∀ (s : State) (b0 b1 b2 b3 : Byte), ∃ t, exec (.crcWord (pack4 b0 b1 b2 b3)) s = .next t ∧
    t.crcR = crcUpd8 (crcUpd8 (crcUpd8 (crcUpd8 s.crcR b0) b1) b2) b3) ∧
  (∀ (s : State) (b0 b1 b2 b3 : Byte), isAlpha b0 = true → isAlpha b1 = true → isAlpha b2 = true → isAlpha b3 = true →
    ∃ t r, exec (.tcDecode (pack4 b0 b1 b2 b3)) s = .next t ∧ t.rsp = some r ∧ r.data.getLsbD 0 = isUpper b0 ∧
      r.data.getLsbD 1 = isUpper b1 ∧ r.data.getLsbD 2 = isUpper b2 ∧ r.data.getLsbD 3 = isLower b3)

/-- 30_encoding.md R40: every executed command yields one response word of 40 bits, `code` in bits 39:32 and `data` in bits
31:0, five bytes with `code` first. -/
def Obligations.ResponseWordLayout : Prop :=
  (∀ (s : State) (cmd : CmdWord), ∃ t r, step (presentNext s cmd) = .next t ∧ t.rsp = some r) ∧
  (∀ r : Response, r.word.extractLsb 39 32 = r.code ∧ r.word.extractLsb 31 0 = r.data ∧
    wordBytes r.word = r.code :: bytes4 r.data) ∧
  (∀ (s : State) (code : Byte) (data : Word), ∃ r, (respond s code data).rsp = some r ∧ r.word = code ++ data)

/-- 30_encoding.md R42: the code and the data of every outcome; the five flag bits by the predicates of 41_typecode.md. -/
def Obligations.ResponseByOutcome : Prop :=
  ∀ (s : State) (cmd : CmdWord), ∃ t r, step (presentNext s cmd) = .next t ∧ t.rsp = some r ∧
    match decode cmd with
    | .legal .crcInit => r = ⟨0x00, 0x00000000⟩ ∧ r.data = t.crcR ^^^ 0xFFFFFFFF ∧ t.crcR = 0xFFFFFFFF
    | .legal (.crcByte _) => r = ⟨0x00, t.crcR ^^^ 0xFFFFFFFF⟩
    | .legal (.crcWord _) => r = ⟨0x00, t.crcR ^^^ 0xFFFFFFFF⟩
    | .legal .crcRead => r = ⟨0x00, s.crcR ^^^ 0xFFFFFFFF⟩ ∧ t.crcR = s.crcR
    | .legal (.crcCheck w) => r.data = s.crcR ^^^ 0xFFFFFFFF ∧
        (r.data = w → r.code = 0x00) ∧ (r.data ≠ w → r.code = 0x02)
    | .legal (.tcDecode w) =>
        ((∀ b ∈ bytes4 w, isAlpha b = true) → r.code = 0x00 ∧
          r.data = (0 : BitVec 27) ++ BitVec.ofBool (isValid w) ++ BitVec.ofBool (safeToCopy w) ++
            BitVec.ofBool (reserved w) ++ BitVec.ofBool (isPublic w) ++ BitVec.ofBool (critical w)) ∧
        ((∃ b ∈ bytes4 w, isAlpha b = false) → r = ⟨0x01, 0x00000000⟩)
    | .illegal _ => r = ⟨0x03, 0x00000000⟩

/-! ### The checksum -/

/-- 40_crc.md R52: one step shifts right and adds `POLY_R` where bit 0 was set; the byte update is eight such steps after the
byte entered at bits 7:0; with the worked example's eight register values. -/
def Obligations.ByteUpdateIsEightSteps : Prop :=
  (∀ c : Word, crcStep1 c = (c >>> 1) ^^^ (if c.getLsbD 0 = true then 0xEDB88320 else 0x00000000)) ∧
  (∀ (c : Word) (b : Byte), crcUpd8 c b =
    crcStep1 (crcStep1 (crcStep1 (crcStep1 (crcStep1 (crcStep1 (crcStep1 (crcStep1 (c ^^^ b.setWidth 32))))))))) ∧
  crcStep1 0xFFFFFFAD = 0x92477CF6 ∧ crcStep1 0x92477CF6 = 0x4923BE7B ∧ crcStep1 0x4923BE7B = 0xC9295C1D ∧
  crcStep1 0xC9295C1D = 0x892C2D2E ∧ crcStep1 0x892C2D2E = 0x44961697 ∧ crcStep1 0x44961697 = 0xCFF3886B ∧
  crcStep1 0xCFF3886B = 0x8A414715 ∧ crcStep1 0x8A414715 = 0xA89820AA ∧ crcUpd8 0xFFFFFFFF 0x52 = 0xA89820AA

/-- 40_crc.md R53: `CRCREG` is the fold of `crc_upd8` from `0xFFFFFFFF`, `CRC32` its complement; the three examples; and the
block allows the empty message. -/
def Obligations.MessageFunctions : Prop :=
  crcReg [] = 0xFFFFFFFF ∧ crc32 [] = 0x00000000 ∧
  (∀ (s : List Byte) (b : Byte), crcReg (s ++ [b]) = crcUpd8 (crcReg s) b) ∧
  (∀ s : List Byte, crc32 s = crcReg s ^^^ 0xFFFFFFFF) ∧
  crc32 [0x31, 0x32, 0x33, 0x34, 0x35, 0x36, 0x37, 0x38, 0x39] = 0xCBF43926 ∧
  crc32 [0x52, 0x75, 0x53, 0x74] = 0xD484093C ∧ crc32 [0x49, 0x45, 0x4E, 0x44] = 0xAE426082 ∧
  (∀ s : State, ∃ t u, step (presentNext s (encode .crcInit)) = .next t ∧
    step (presentNext t (encode .crcRead)) = .next u ∧ u.rsp = some ⟨0x00, crc32 []⟩)

/-- 40_crc.md R55, the polynomial form: with `m_(8k+j)` bit `j` of byte `k`, `M` the message polynomial, `I` the 32 ones and
`G` the generator over the two-element field, the remainder of `x^32 M + x^N I` by `G`, its coefficients read backwards, is
`CRCREG`, and all its bits complemented are `CRC32`. -/
def Obligations.PolynomialForm : Prop :=
  ∀ s : List Byte,
    let N := 8 * s.length
    let m : Nat → ZMod 2 := fun i => if (s.getD (i / 8) 0).getLsbD (i % 8) = true then 1 else 0
    let x : Polynomial (ZMod 2) := Polynomial.X
    let M := ∑ i ∈ Finset.range N, Polynomial.C (m i) * x ^ (N - 1 - i)
    let I := ∑ i ∈ Finset.range 32, x ^ i
    let G := x ^ 32 + x ^ 26 + x ^ 23 + x ^ 22 + x ^ 16 + x ^ 12 + x ^ 11 + x ^ 10 + x ^ 8 + x ^ 7 + x ^ 5 + x ^ 4 +
      x ^ 2 + x + 1
    let R := (x ^ 32 * M + x ^ N * I).modByMonic G
    (∀ k < 32, (crcReg s).getLsbD k = true ↔ R.coeff (31 - k) = 1) ∧ crc32 s = ~~~ crcReg s

/-- The table form of the update (40_crc.md section 2, R56, which the spec derives from R52), with the entries the rule
prints. -/
def Obligations.TableFormOfUpdate : Prop :=
  (∀ (c : Word) (b : Byte), crcUpd8 c b = tableEntry ((c ^^^ b.setWidth 32).extractLsb 7 0) ^^^ (c >>> 8)) ∧
  (∀ i : Byte, tableEntry i = crcUpd8 0x00000000 i) ∧
  tableEntry 0x00 = 0x00000000 ∧ tableEntry 0x01 = 0x77073096 ∧ tableEntry 0x80 = 0xEDB88320 ∧
  tableEntry 0xFF = 0x2D02EF8D

/-- The update is linear (40_crc.md section 2, R57 (a), which the spec derives from R52). -/
def Obligations.UpdateIsLinear : Prop :=
  (∀ (c d : Word) (a b : Byte), crcUpd8 (c ^^^ d) (a ^^^ b) = crcUpd8 c a ^^^ crcUpd8 d b) ∧
  (∀ (c : Word) (b : Byte), crcUpd8 c b = crcUpd8 (c ^^^ b.setWidth 32) 0x00)

/-- No register value is lost (40_crc.md section 2, R57 (b), which the spec derives from R52): bit 31 of a step is the bit
shifted out; a step and the update by a fixed byte are bijections; from a fixed register different bytes leave different
registers. -/
def Obligations.UpdateIsBijective : Prop :=
  (∀ c : Word, (crcStep1 c).getLsbD 31 = c.getLsbD 0) ∧ Function.Bijective crcStep1 ∧
  (∀ b : Byte, Function.Bijective fun c => crcUpd8 c b) ∧ (∀ c : Word, Function.Injective (crcUpd8 c))

/-- The checksums of two messages of one length differ by `CRCREG0` of the bytewise difference (40_crc.md section 2, R57 (c),
which the spec derives). -/
def Obligations.DifferenceOfChecksums : Prop :=
  ∀ s t : List Byte, s.length = t.length → crc32 s ^^^ crc32 t = crcReg0 (List.zipWith (· ^^^ ·) s t)

/-- 40_crc.md R58: two messages of one length that differ in exactly one bit have different checksums; on the block, from any
state, feeding the one after `CRC_INIT` instead of the other leaves a different register, and `CRC_CHECK` of the other's
checksum then answers `INVALID_CHECKSUM`; with the rule's example. -/
def Obligations.SingleBitIsDetected : Prop :=
  (∀ (u v : List Byte) (b : Byte) (k : Nat), k < 8 →
    let s := u ++ b :: v
    let t := u ++ (b ^^^ BitVec.twoPow 8 k) :: v
    crc32 s ≠ crc32 t ∧
    ∀ (st : State) (fs : List Instr), allFeed fs = true → fedMessage fs = t →
      ∃ rs r w, observe (fs.length + 2) (presentCommands st (.crcInit :: fs ++ [.crcCheck (crc32 s)])) =
          some (rs ++ [r], w) ∧
        r.code = 0x02 ∧ w.crcR = crcReg t ∧ w.crcR ≠ crcReg s) ∧
  crc32 [0x52, 0x75, 0x53, 0x74] ^^^ crc32 [0x53, 0x75, 0x53, 0x74] = 0xB8BC6765 ∧
  crcReg0 [0x01, 0x00, 0x00, 0x00] = 0xB8BC6765 ∧ crc32 [0x53, 0x75, 0x53, 0x74] = 0x6C386E59

/-- 40_crc.md R59: a message followed by its checksum, least significant byte first, leaves the constant `0xDEBB20E3`; most
significant byte first (file order) it does so exactly where the checksum's bytes read the same in both orders. The rule's own
remark, that file order does not produce the constant, is looser than this exact condition: it overlooks those checksums. -/
def Obligations.ResidueLaw : Prop :=
  ∀ s : List Byte,
    let v := crc32 s
    crcReg (s ++ [v.extractLsb 7 0, v.extractLsb 15 8, v.extractLsb 23 16, v.extractLsb 31 24]) = 0xDEBB20E3 ∧
    (crcReg (s ++ bytes4 v) = 0xDEBB20E3 ↔ (bytes4 v).reverse = bytes4 v)

/-! ### The commands: each with its whole next state, so its frame is stated too

Where a next state has a message, it is the ghost message a model may carry (10_state.md R18, log entry 3): no part of the rule
of the command, and no other field depends on it (`Obligations.NothingHidden`). -/

/-- 40_crc.md R60, `CRC_INIT`. It completes from every state; it writes `crc_r`, the message and the response and nothing
else; the word with an operand bit set is illegal and initialises nothing; idempotent; the rule's example.
(The message is ghost state, log entry 3.) -/
def Obligations.CrcInitStartsMessage : Prop :=
  (∀ s : State, exec .crcInit s =
    .next { s with crcR := 0xFFFFFFFF, msg := some [], rsp := some ⟨0x00, 0x00000000⟩ }) ∧
  encode .crcInit = makeWord 0x01 0x00000000 ∧ decode (makeWord 0x01 0x00000000) = .legal .crcInit ∧
  (∀ (s : State) (arg : Word), arg ≠ 0 →
    step (presentNext s (makeWord 0x01 arg)) = .next { s with rsp := some ⟨0x03, 0x00000000⟩ }) ∧
  (∀ s t : State, exec .crcInit s = .next t → exec .crcInit t = .next t) ∧
  (∀ s : State, s.crcR = 0x12345678 → ∃ t r, step (presentNext s 0x0100000000) = .next t ∧ t.crcR = 0xFFFFFFFF ∧
    t.rsp = some r ∧ r.word = 0x0000000000)

/-- 40_crc.md R61, `CRC_BYTE b`. It completes from every state for every byte; it writes `crc_r`, extends the message by `b`,
answers the checksum including `b`, and changes nothing else; a word with a bit of `arg[31:8]` set is illegal; a zero byte
changes the register; not idempotent; the rule's example.
(The message is ghost state, log entry 3.) -/
def Obligations.CrcByteFeedsOneByte : Prop :=
  (∀ (s : State) (b : Byte), exec (.crcByte b) s =
    .next { s with crcR := crcUpd8 s.crcR b, msg := s.msg.map (· ++ [b]),
                   rsp := some ⟨0x00, crcUpd8 s.crcR b ^^^ 0xFFFFFFFF⟩ }) ∧
  (∀ b : Byte, encode (.crcByte b) = makeWord 0x02 (b.setWidth 32) ∧
    decode (makeWord 0x02 (b.setWidth 32)) = .legal (.crcByte b)) ∧
  (∀ (s : State) (arg : Word), arg.extractLsb 31 8 ≠ 0 →
    step (presentNext s (makeWord 0x02 arg)) = .next { s with rsp := some ⟨0x03, 0x00000000⟩ }) ∧
  crcUpd8 0xFFFFFFFF 0x00 = 0x2DFD1072 ∧
  (∃ (s t u : State) (b : Byte), exec (.crcByte b) s = .next t ∧ exec (.crcByte b) t = .next u ∧ u.crcR ≠ t.crcR) ∧
  (∀ s : State, s.crcR = 0xFFFFFFFF → ∃ t r, step (presentNext s 0x0200000061) = .next t ∧ t.crcR = 0x174841BC ∧
    t.rsp = some r ∧ r.word = 0x00E8B7BE43)

/-- 40_crc.md R62, `CRC_WORD w`. It completes from every state for every `w`; it feeds `w[31:24]` first and `w[7:0]` last and
changes nothing else; it equals the four `CRC_BYTE` commands but for the number of responses, its one response being the
fourth's; not idempotent; the rule's example.
(The message is ghost state, log entry 3.) -/
def Obligations.CrcWordFeedsFourBytes : Prop :=
  (∀ (s : State) (w : Word), exec (.crcWord w) s =
    let n0 := crcUpd8 s.crcR (w.extractLsb 31 24)
    let n1 := crcUpd8 n0 (w.extractLsb 23 16)
    let n2 := crcUpd8 n1 (w.extractLsb 15 8)
    let n3 := crcUpd8 n2 (w.extractLsb 7 0)
    .next { s with crcR := n3, rsp := some ⟨0x00, n3 ^^^ 0xFFFFFFFF⟩,
                   msg := s.msg.map (· ++ [w.extractLsb 31 24, w.extractLsb 23 16, w.extractLsb 15 8, w.extractLsb 7 0]) }) ∧
  (∀ w : Word, encode (.crcWord w) = makeWord 0x03 w ∧ decode (makeWord 0x03 w) = .legal (.crcWord w)) ∧
  (∀ (s : State) (w : Word), ∃ r r0 r1 r2 t, observe 1 (presentCommands s [.crcWord w]) = some ([r], t) ∧
    observe 4 (presentCommands s [.crcByte (w.extractLsb 31 24), .crcByte (w.extractLsb 23 16),
      .crcByte (w.extractLsb 15 8), .crcByte (w.extractLsb 7 0)]) = some ([r0, r1, r2, r], t)) ∧
  (∃ (s t u : State) (w : Word), exec (.crcWord w) s = .next t ∧ exec (.crcWord w) t = .next u ∧ u.crcR ≠ t.crcR) ∧
  (∀ s : State, s.crcR = 0xFFFFFFFF → ∃ t r, step (presentNext s 0x0352755374) = .next t ∧ t.crcR = 0x2B7BF6C3 ∧
    t.rsp = some r ∧ r.word = 0x00D484093C)

/-- 40_crc.md R63, `CRC_READ`. It completes from every state, answers OK and the checksum so far and changes nothing else; a
word with an operand bit set is illegal; straight after reset or `CRC_INIT` it answers 0, before both the complement of
`POWERUP_CRC`; it does not end the message; the rule's example. -/
def Obligations.CrcReadAnswersChecksum : Prop :=
  (∀ s : State, exec .crcRead s = .next { s with rsp := some ⟨0x00, s.crcR ^^^ 0xFFFFFFFF⟩ }) ∧
  encode .crcRead = makeWord 0x04 0x00000000 ∧ decode (makeWord 0x04 0x00000000) = .legal .crcRead ∧
  (∀ (s : State) (arg : Word), arg ≠ 0 →
    step (presentNext s (makeWord 0x04 arg)) = .next { s with rsp := some ⟨0x03, 0x00000000⟩ }) ∧
  (∃ t, exec .crcRead State.reset = .next t ∧ t.rsp = some ⟨0x00, 0x00000000⟩) ∧
  (∀ s t : State, exec .crcInit s = .next t → ∃ u, exec .crcRead t = .next u ∧ u.rsp = some ⟨0x00, 0x00000000⟩) ∧
  (∀ c : Word, ∃ t, exec .crcRead (State.powerUp c) = .next t ∧ t.rsp = some ⟨0x00, c ^^^ 0xFFFFFFFF⟩) ∧
  (∀ (s : State) (m : List Byte) (b : Byte), s.crcR = crcReg m → ∃ rs u,
    observe 3 (presentCommands s [.crcRead, .crcByte b, .crcRead]) = some (rs ++ [⟨0x00, crc32 (m ++ [b])⟩], u)) ∧
  (∀ s : State, s.crcR = 0x542E27B1 → ∃ t r, step (presentNext s 0x0400000000) = .next t ∧ t.crcR = 0x542E27B1 ∧
    t.rsp = some r ∧ r.word = 0x00ABD1D84E)

/-- 40_crc.md R64, `CRC_CHECK w`. It completes from every state for every `w`, writing nothing: OK where the checksum so far
equals `w` in all 32 bits, else `INVALID_CHECKSUM`, with the checksum so far as data both times; it may be repeated and does
not end the message; after reset or `CRC_INIT` the empty message checks against 0; the rule's example. -/
def Obligations.CrcCheckCompares : Prop :=
  (∀ (s : State) (w : Word), s.crcR ^^^ 0xFFFFFFFF = w →
    exec (.crcCheck w) s = .next { s with rsp := some ⟨0x00, s.crcR ^^^ 0xFFFFFFFF⟩ }) ∧
  (∀ (s : State) (w : Word), s.crcR ^^^ 0xFFFFFFFF ≠ w →
    exec (.crcCheck w) s = .next { s with rsp := some ⟨0x02, s.crcR ^^^ 0xFFFFFFFF⟩ }) ∧
  (∀ w : Word, encode (.crcCheck w) = makeWord 0x05 w ∧ decode (makeWord 0x05 w) = .legal (.crcCheck w)) ∧
  (∀ (s t : State) (w : Word), exec (.crcCheck w) s = .next t → exec (.crcCheck w) t = .next t ∧ t.msg = s.msg) ∧
  (∃ t, exec (.crcCheck 0x00000000) State.reset = .next t ∧ t.rsp = some ⟨0x00, 0x00000000⟩) ∧
  (∀ s t : State, exec .crcInit s = .next t →
    ∃ u, exec (.crcCheck 0x00000000) t = .next u ∧ u.rsp = some ⟨0x00, 0x00000000⟩) ∧
  (∀ s : State, s.crcR = 0x51BD9F7D →
    (∃ t r, step (presentNext s 0x05AE426082) = .next t ∧ t.crcR = 0x51BD9F7D ∧ t.rsp = some r ∧ r.word = 0x00AE426082) ∧
    (∃ t r, step (presentNext s 0x05AE426083) = .next t ∧ t.crcR = 0x51BD9F7D ∧ t.rsp = some r ∧ r.word = 0x02AE426082))

/-- 41_typecode.md R81, `TC_DECODE w`. It completes from every state for every `w` and writes no state: with four letters it
answers OK and the five bits read from bit 5 of each byte, otherwise `INVALID_TYPE_CODE` and 0; not valid for general use is no
failure; all-zero and all-ones operands fail; the same `w` gives the same response in every state; the rule's examples. -/
def Obligations.TcDecodeReportsPredicates : Prop :=
  (∀ (s : State) (w : Word), isAlpha (w.extractLsb 31 24) = true → isAlpha (w.extractLsb 23 16) = true →
    isAlpha (w.extractLsb 15 8) = true → isAlpha (w.extractLsb 7 0) = true →
    ∃ d : Word, exec (.tcDecode w) s = .next { s with rsp := some ⟨0x00, d⟩ } ∧
      d.getLsbD 0 = !(w.extractLsb 31 24).getLsbD 5 ∧ d.getLsbD 1 = !(w.extractLsb 23 16).getLsbD 5 ∧
      d.getLsbD 2 = !(w.extractLsb 15 8).getLsbD 5 ∧ d.getLsbD 3 = (w.extractLsb 7 0).getLsbD 5 ∧
      d.getLsbD 4 = d.getLsbD 2 ∧ d.extractLsb 31 5 = 0) ∧
  (∀ (s : State) (w : Word), (isAlpha (w.extractLsb 31 24) && isAlpha (w.extractLsb 23 16) &&
    isAlpha (w.extractLsb 15 8) && isAlpha (w.extractLsb 7 0)) = false →
    exec (.tcDecode w) s = .next { s with rsp := some ⟨0x01, 0x00000000⟩ }) ∧
  (∀ w : Word, encode (.tcDecode w) = makeWord 0x10 w ∧ decode (makeWord 0x10 w) = .legal (.tcDecode w)) ∧
  (∃ w : Word, ∀ s : State, ∃ t r, exec (.tcDecode w) s = .next t ∧ t.rsp = some r ∧ r.code = 0x00 ∧
    r.data.getLsbD 4 = false) ∧
  (∀ s : State, ∃ t u, exec (.tcDecode 0x00000000) s = .next t ∧ t.rsp = some ⟨0x01, 0⟩ ∧
    exec (.tcDecode 0xFFFFFFFF) s = .next u ∧ u.rsp = some ⟨0x01, 0⟩) ∧
  (∀ (s t s' t' : State) (w : Word), exec (.tcDecode w) s = .next s' → exec (.tcDecode w) t = .next t' →
    s'.rsp = t'.rsp) ∧
  (∀ s : State,
    (∃ t r, step (presentNext s 0x1052755374) = .next t ∧ t.rsp = some r ∧ r.word = 0x000000001D) ∧
    (∃ t r, step (presentNext s 0x1052753174) = .next t ∧ t.rsp = some r ∧ r.word = 0x0100000000))

/-- The frame of every command: one that gives a next state consumes no input, gives a response, and leaves `crc_r` and the
message alone unless it is one of the three that write them (10_state.md section 1, R11). There is no other register and no
memory. -/
def Obligations.CommandFrame : Prop :=
  ∀ (i : Instr) (s t : State), exec i s = .next t →
    t.inputs = s.inputs ∧ t.rsp.isSome = true ∧
    (i = .crcRead ∨ (∃ w, i = .crcCheck w) ∨ (∃ w, i = .tcDecode w) →
      t.crcR = s.crcR ∧ t.msg = s.msg)

/-- `CRC_READ`, `CRC_CHECK` and `TC_DECODE` may be repeated with the same result, whatever came between them that does not
write the register (20_memory.md section 4, R29). -/
def Obligations.ReadersMayBeRepeated : Prop :=
  ∀ (i : Instr) (cmds : List CmdWord) (s t : State), writesCrc i = false → (∀ c ∈ cmds, keepsCrc c = true) →
    step (presentNext s (encode i)) = .next t → ∃ rs u r,
      observe (cmds.length + 1) (presentWords t (cmds ++ [encode i])) = some (rs ++ [r], u) ∧ t.rsp = some r ∧
      u.crcR = s.crcR ∧ u.msg = s.msg

/-- Read then check (40_crc.md section 3, R65, which the spec derives): what `CRC_READ` answers, `CRC_CHECK` accepts after any
number of reads, checks, type-code decodes and illegal words. -/
def Obligations.ReadThenCheckAccepts : Prop :=
  ∀ (s t : State) (v : Word) (cmds : List CmdWord), exec .crcRead s = .next t → t.rsp = some ⟨0x00, v⟩ →
    (∀ c ∈ cmds, keepsCrc c = true) → ∃ rs u,
      observe (cmds.length + 1) (presentWords t (cmds ++ [encode (.crcCheck v)])) = some (rs ++ [⟨0x00, v⟩], u) ∧
      u.crcR = s.crcR ∧ u.msg = s.msg

/-! ### Host sequences -/

/-- The sequence for a new segment (40_crc.md section 4, R66, which the spec derives), from every state: `CRC_INIT`, any mix of
feeding commands for the message, `CRC_READ`. Every command answers OK, the last two answers are the checksum, and the
commands of the rule are such a sequence for `tc ++ p`. -/
def Obligations.NewSegmentChecksum : Prop :=
  (∀ (s : State) (fs : List Instr), allFeed fs = true → ∃ rs u,
    observe (fs.length + 2) (presentCommands s (.crcInit :: fs ++ [.crcRead])) =
      some (rs ++ [⟨0x00, crc32 (fedMessage fs)⟩], u) ∧
    rs.length = fs.length + 1 ∧ rs.getLast? = some ⟨0x00, crc32 (fedMessage fs)⟩ ∧ (∀ r ∈ rs, r.code = 0x00) ∧
    u.crcR = crcReg (fedMessage fs) ∧ u.msg = some (fedMessage fs) ∧ u.inputs = s.inputs) ∧
  (∀ (tc : Word) (p : List Byte), ∃ fs, newSegmentCommands tc p = .crcInit :: fs ++ [.crcRead] ∧ allFeed fs = true ∧
    fedMessage fs = bytes4 tc ++ p)

/-- The sequence for verifying a serialized segment (40_crc.md section 4, R67), from every state: `TC_DECODE` answers
`INVALID_TYPE_CODE` exactly where one of the bytes 4 to 7 is no letter, and disturbs nothing; the commands after it end with
OK exactly where the stored four bytes are the checksum of `bytes[4..8+length]`, else with `INVALID_CHECKSUM`. The commands after
`TC_DECODE` are run whatever it answers: that the host stops after a bad type code is no step of the machine (log entry 10). -/
def Obligations.VerifySegmentIsExact : Prop :=
  ∀ (s : State) (bytes : List Byte) (length : Nat), bytes.length = 12 + length →
    ∃ first cmds t r, verifySegment bytes length = some (first, cmds) ∧
      step (presentNext s (encode first)) = .next t ∧ t.rsp = some r ∧ t.crcR = s.crcR ∧ t.msg = s.msg ∧
      (r.code = 0x01 ↔ ∃ b ∈ (bytes.drop 4).take 4, isAlpha b = false) ∧ (r.code ≠ 0x01 → r.code = 0x00) ∧
      ∃ rs q u, observe cmds.length (presentCommands t cmds) = some (rs ++ [q], u) ∧
        (∀ a ∈ rs, a.code = 0x00) ∧
        (q.code = 0x00 ↔ bytes4 (crc32 ((bytes.drop 4).take (4 + length))) = (bytes.drop (8 + length)).take 4) ∧
        (q.code ≠ 0x00 → q.code = 0x02)

/-- The block's share of the round-trip property (40_crc.md sections 3 and 4, R65 to R67): of a segment serialized
with the checksum the block computed for it, `CRC_CHECK` accepts that checksum, from every state, whatever the length field says.
It is the checksum that is accepted, for every type code: the commands after `TC_DECODE` are run whatever it answers, and that the
host stops after a bad type code, which R67 has fail with InvalidTypeCode, is no step of the machine (log entry 10). -/
def Obligations.SerializedSegmentVerifies : Prop :=
  ∀ (s t : State) (len tc v : Word) (p : List Byte) (rs : List Response),
    observe (p.length + 3) (presentCommands s (newSegmentCommands tc p)) = some (rs ++ [⟨0x00, v⟩], t) →
    ∃ first cmds qs u, verifySegment (segmentBytes len tc p v) p.length = some (first, cmds) ∧ first = .tcDecode tc ∧
      observe cmds.length (presentCommands t cmds) = some (qs ++ [⟨0x00, v⟩], u)

/-- Which bytes of a serialized segment are the message and which the stored checksum (20_memory.md section 2, R22 to R24): the
type code and the payload, never the length field; then the four bytes after them. -/
def Obligations.SegmentSlices : Prop :=
  (∀ (len tc v : Word) (p : List Byte),
    (segmentBytes len tc p v).length = 12 + p.length ∧
    messageSlice (segmentBytes len tc p v) p.length = segmentMessage tc p ∧
    segmentTypeCode (segmentBytes len tc p v) = some tc ∧
    segmentChecksum (segmentBytes len tc p v) p.length = some v) ∧
  (∀ (bytes : List Byte) (length k : Nat), bytes.length = 12 + length → k < 4 + length →
    (messageSlice bytes length)[k]? = bytes[4 + k]?) ∧
  (∀ (bytes : List Byte) (length : Nat), bytes.length = 12 + length → (messageSlice bytes length).length = 4 + length)

/-- One `CRC_INIT` per message (70_reset_and_hazards.md R113): from a register that holds the remainder of `m`, feeding `fs`,
then anything that is no `CRC_INIT` and feeds nothing (reads, checks, decodes, failures), then feeding `gs`, gives the checksum
of all of it concatenated; with the rule's example. -/
def Obligations.MessagesConcatenate : Prop :=
  (∀ (s : State) (m : List Byte) (fs gs : List Instr) (ws : List CmdWord), s.crcR = crcReg m → allFeed fs = true →
    allFeed gs = true → (∀ c ∈ ws, keepsCrc c = true) → ∃ rs u,
      observe (fs.length + ws.length + gs.length + 1)
        (presentWords s (fs.map encode ++ ws ++ gs.map encode ++ [encode .crcRead])) =
        some (rs ++ [⟨0x00, crc32 (m ++ fedMessage fs ++ fedMessage gs)⟩], u)) ∧
  (∃ rs u, observe 5 (presentCommands State.reset
      [.crcByte 0x61, .crcRead, .crcByte 0x62, .crcByte 0x63, .crcRead]) =
      some (rs ++ [⟨0x00, 0x352441C2⟩], u) ∧ rs[1]? = some ⟨0x00, 0xE8B7BE43⟩) ∧
  crc32 [0x61, 0x62, 0x63] = 0x352441C2 ∧ crc32 [0x62, 0x63] = 0xC2A92B38

/-- A command held over two edges is executed twice (70_reset_and_hazards.md section 2, R120): `CRC_BYTE b` feeds `b` twice. -/
def Obligations.HeldCommandFeedsTwice : Prop :=
  ∀ (s : State) (b : Byte) (m : List Byte), s.crcR = crcReg m → ∃ r q u,
    observe 2 (presentCommands s [.crcByte b, .crcByte b]) = some ([r, q], u) ∧ u.crcR = crcReg (m ++ [b, b]) ∧
    q.data = crc32 (m ++ [b, b])

/-! ### The type code -/

/-- 41_typecode.md R71: the alphabetic bytes, in numbers; the neighbours of the four range ends, digits, space, zero and every
byte with bit 7 set are none; exactly 52 of the 256 are. -/
def Obligations.AlphabeticBytes : Prop :=
  (∀ b : Byte, isAlpha b = true ↔ (0x41 ≤ b.toNat ∧ b.toNat ≤ 0x5A) ∨ (0x61 ≤ b.toNat ∧ b.toNat ≤ 0x7A)) ∧
  (∀ b ∈ [(0x40 : Byte), 0x5B, 0x60, 0x7B, 0x20, 0x00], isAlpha b = false) ∧
  (∀ b : Byte, 0x30 ≤ b → b ≤ 0x39 → isAlpha b = false) ∧
  (∀ b : Byte, b.getLsbD 7 = true → isAlpha b = false) ∧
  ((List.range 256).filter fun n => isAlpha (BitVec.ofNat 8 n)).length = 52

/-- 41_typecode.md R72: upper and lower case, exclusive of each other, and their agreement with bit 5, mask `0x20`, of an
alphabetic byte; for a byte that is not alphabetic they need not agree, which no response shows. -/
def Obligations.CaseIsBitFive : Prop :=
  (∀ b : Byte, (isUpper b = true ↔ 0x41 ≤ b.toNat ∧ b.toNat ≤ 0x5A) ∧
    (isLower b = true ↔ 0x61 ≤ b.toNat ∧ b.toNat ≤ 0x7A) ∧ (isAlpha b = (isUpper b || isLower b)) ∧
    (isUpper b && isLower b) = false) ∧
  (∀ b : Byte, isAlpha b = true → (isUpper b = true ↔ b.getLsbD 5 = false) ∧ (isLower b = true ↔ b.getLsbD 5 = true) ∧
    (flagBit b = b.getLsbD 5)) ∧
  ((0x31 : Byte).getLsbD 5 = true ∧ isLower 0x31 = false) ∧
  (∀ (s t : State) (w : Word), tcParseOk w = false → exec (.tcDecode w) s = .next t → t.rsp = some ⟨0x01, 0⟩)

/-- 41_typecode.md R73: `tc_parse_ok` is that all four bytes are letters; it decides `TC_DECODE`'s code; a lowercase byte 2
parses; 52^4 of the operand values parse. -/
def Obligations.ParsingTypeCodes : Prop :=
  (∀ w : Word, tcParseOk w = true ↔ ∀ b ∈ bytes4 w, isAlpha b = true) ∧
  (∀ (s : State) (w : Word), ∃ t r, exec (.tcDecode w) s = .next t ∧ t.rsp = some r ∧
    (r.code = 0x00 ↔ tcParseOk w = true) ∧ (r.code = 0x01 ↔ tcParseOk w = false)) ∧
  (∀ w : Word, isAlpha (byte0 w) = true → isAlpha (byte1 w) = true → isLower (byte2 w) = true → isAlpha (byte3 w) = true →
    tcParseOk w = true) ∧
  Nat.card { w : Word // tcParseOk w = true } = 7311616

/-- 41_typecode.md R74 to R78: each predicate by the case of its byte, for a type code that parses by one bit of the operand;
the response reports them; `is_valid` equals `reserved` for a parsed type code; the three examples. -/
def Obligations.FivePredicates : Prop :=
  (∀ w : Word, critical w = isUpper (w.extractLsb 31 24) ∧ isPublic w = isUpper (w.extractLsb 23 16) ∧
    reserved w = isUpper (w.extractLsb 15 8) ∧ safeToCopy w = isLower (w.extractLsb 7 0) ∧
    isValid w = (tcParseOk w && isUpper (w.extractLsb 15 8))) ∧
  (∀ w : Word, tcParseOk w = true → critical w = !w.getLsbD 29 ∧ isPublic w = !w.getLsbD 21 ∧
    reserved w = !w.getLsbD 13 ∧ safeToCopy w = w.getLsbD 5 ∧ isValid w = reserved w) ∧
  (∀ (s : State) (w : Word), tcParseOk w = true → ∃ t r, exec (.tcDecode w) s = .next t ∧ t.rsp = some r ∧
    r.code = 0x00 ∧ r.data.getLsbD 0 = critical w ∧ r.data.getLsbD 1 = isPublic w ∧ r.data.getLsbD 2 = reserved w ∧
    r.data.getLsbD 3 = safeToCopy w ∧ r.data.getLsbD 4 = isValid w) ∧
  isValid (pack4 0x52 0x55 0x53 0x54) = true ∧ isValid (pack4 0x52 0x75 0x53 0x74) = true ∧
  isValid (pack4 0x52 0x75 0x73 0x74) = false

/-- 41_typecode.md R80: two type codes are equal iff their four bytes are equal in order, iff their packed operands are equal;
`"RuSt"` and `"RUST"` are different. -/
def Obligations.TypeCodeEquality : Prop :=
  (∀ w v : Word, bytes4 w = bytes4 v ↔ w = v) ∧
  (∀ a0 a1 a2 a3 b0 b1 b2 b3 : Byte, [a0, a1, a2, a3] = [b0, b1, b2, b3] ↔ pack4 a0 a1 a2 a3 = pack4 b0 b1 b2 b3) ∧
  pack4 0x52 0x75 0x53 0x74 ≠ pack4 0x52 0x55 0x53 0x54

/-- The laws of `TC_DECODE`'s response (41_typecode.md section 3, R83, which the spec derives), (a) to (f). -/
def Obligations.TcResponseLaws : Prop :=
  (∀ (s : State) (w : Word), ∃ t r, exec (.tcDecode w) s = .next t ∧ t.rsp = some r ∧ t.crcR = s.crcR ∧
    (r.code = 0x00 ∨ r.code = 0x01) ∧
    (r.code = 0x01 ↔ tcParseOk w = false) ∧ (r.code = 0x01 → r.data = 0) ∧
    (r.code = 0x00 → r.data.extractLsb 31 5 = 0 ∧ r.data.getLsbD 4 = r.data.getLsbD 2 ∧
      r.data.getLsbD 0 = !w.getLsbD 29 ∧ r.data.getLsbD 1 = !w.getLsbD 21 ∧ r.data.getLsbD 2 = !w.getLsbD 13 ∧
      r.data.getLsbD 3 = w.getLsbD 5)) ∧
  (∀ (s : State) (f : BitVec 4), ∃ w t, exec (.tcDecode w) s = .next t ∧
    t.rsp = some ⟨0x00, (0 : BitVec 27) ++ BitVec.ofBool (f.getLsbD 2) ++ f⟩)

/-- From the truth table of the flags by case (41_typecode.md section 3, R84, which the spec derives): changing the case of one
letter of a type code that parses flips the flag of that byte, for byte 2 also `VALID`, and no other. (On which bits of the
operand each flag depends at all is law (d) in `Obligations.TcResponseLaws`.) -/
def Obligations.FlagsAreIndependent : Prop :=
  ∀ (s : State) (w : Word), tcParseOk w = true → ∃ d : Word, exec (.tcDecode w) s = .next { s with rsp := some ⟨0x00, d⟩ } ∧
    exec (.tcDecode (w ^^^ 0x20000000)) s = .next { s with rsp := some ⟨0x00, d ^^^ 0x01⟩ } ∧
    exec (.tcDecode (w ^^^ 0x00200000)) s = .next { s with rsp := some ⟨0x00, d ^^^ 0x02⟩ } ∧
    exec (.tcDecode (w ^^^ 0x00002000)) s = .next { s with rsp := some ⟨0x00, d ^^^ 0x14⟩ } ∧
    exec (.tcDecode (w ^^^ 0x00000020)) s = .next { s with rsp := some ⟨0x00, d ^^^ 0x08⟩ }

/-! ### Failures -/

/-- 60_exceptions.md R91: a failing command writes no state; the next edge is as if it had never been presented; presenting the
same command again in the same state gives the same failure. -/
def Obligations.FailuresLeaveNoTrace : Prop :=
  ∀ (s t : State) (r : Response), step s = .next t → t.rsp = some r → r.code ≠ 0x00 →
    t = { s with rsp := some r, inputs := s.inputs.tail } ∧
    step t = step { s with inputs := s.inputs.tail } ∧
    step { t with inputs := s.inputs } = .next t

/-- 30_encoding.md R41 and 60_exceptions.md R92: each failure code is given by its one command, exactly for its cause, with its
data; `CRC_INIT`, `CRC_BYTE`, `CRC_WORD` and `CRC_READ` never fail; no other code is ever produced; where `rsp_valid` = 1 after
any edge, a command was presented at it and the code is one of the four. -/
def Obligations.FailureKindsExactly : Prop :=
  (∀ (s : State) (cmd : CmdWord), ∃ t r, step (presentNext s cmd) = .next t ∧ t.rsp = some r ∧
    (r.code = 0x00 ∨ r.code = 0x01 ∨ r.code = 0x02 ∨ r.code = 0x03) ∧
    (r.code = 0x01 ↔ ∃ w, decode cmd = .legal (.tcDecode w) ∧ ∃ b ∈ bytes4 w, isAlpha b = false) ∧
    (r.code = 0x01 → r.data = 0x00000000) ∧
    (r.code = 0x02 ↔ ∃ w, decode cmd = .legal (.crcCheck w) ∧ s.crcR ^^^ 0xFFFFFFFF ≠ w) ∧
    (r.code = 0x02 → r.data = s.crcR ^^^ 0xFFFFFFFF) ∧
    (r.code = 0x03 ↔ ∃ why, decode cmd = .illegal why) ∧ (r.code = 0x03 → r.data = 0x00000000)) ∧
  (∀ (s t : State) (r : Response), step s = .next t → t.rsp = some r → r.code ≤ 0x03 ∧
    ∃ c ∈ s.inputs.head?, c.rst = false ∧ c.cmdValid = true)

/-! ### The register, invariants, and what a step depends on -/

/-- The table of who reads and writes the register (10_state.md section 1): what each event writes to `crc_r`; no other event
changes it; and which of them read it: the answer to `CRC_INIT`, `TC_DECODE` and illegal words is the same whatever the register
holds, each of the other four answers differently in some two registers. The clause on `s.inputs = []` is the model's choice: an
exhausted list of inputs is an idle host (log entry 1). -/
def Obligations.WhoReadsAndWritesTheRegister : Prop :=
  (∀ s t : State, step s = .next t →
    (s.inputs = [] → t.crcR = s.crcR) ∧
    ∀ c ∈ s.inputs.head?, if c.rst = true then t.crcR = 0xFFFFFFFF else if c.cmdValid = false then t.crcR = s.crcR else
      match decode c.cmd with
      | .legal .crcInit => t.crcR = 0xFFFFFFFF
      | .legal (.crcByte b) => t.crcR = crcUpd8 s.crcR b
      | .legal (.crcWord w) => t.crcR = crcUpd8 (crcUpd8 (crcUpd8 (crcUpd8 s.crcR (w.extractLsb 31 24))
          (w.extractLsb 23 16)) (w.extractLsb 15 8)) (w.extractLsb 7 0)
      | .legal .crcRead => t.crcR = s.crcR
      | .legal (.crcCheck _) => t.crcR = s.crcR
      | .legal (.tcDecode _) => t.crcR = s.crcR
      | .illegal _ => t.crcR = s.crcR) ∧
  (∀ (s s' : State) (c : Word) (cmd : CmdWord), (∀ i, decode cmd = .legal i → readsCrc i = false) →
    step (presentNext s cmd) = .next s' → ∃ t', step (presentNext { s with crcR := c } cmd) = .next t' ∧ t'.rsp = s'.rsp) ∧
  (∀ (i : Instr) (s : State), readsCrc i = true → ∃ c t t', exec i s = .next t ∧
    exec i { s with crcR := c } = .next t' ∧ t.rsp ≠ t'.rsp) ∧
  (∀ i : Instr, readsCrc i = true ↔ i.mnemonic ∈ ["CRC_BYTE", "CRC_WORD", "CRC_READ", "CRC_CHECK"])

/-- AN INVARIANT THAT EVERY STEP KEEPS: the register holds the remainder of the message wherever the message has a meaning
(10_state.md section 2, R18, which the spec derives), and a response carries one of the four codes. -/
def Obligations.InvariantIsKept : Prop :=
  ∀ s t : State, Inv s → step s = .next t → Inv t

/-- The invariant holds right after reset and at power-up, whatever `POWERUP_CRC` is. -/
def Obligations.InvariantAtStart : Prop :=
  Inv State.reset ∧ ∀ c : Word, Inv (State.powerUp c)

/-- The running checksum (10_state.md section 2, R12 and R18, which the spec derives): from a register that holds the remainder
of `m`, any words whatever, legal or not, leave the remainder of the message they make, and `crc_out` its checksum; one
response each. -/
def Obligations.RegisterFollowsTheMessage : Prop :=
  ∀ (s : State) (m : List Byte) (ws : List CmdWord), s.crcR = crcReg m → ∃ rs u,
    observe ws.length (presentWords s ws) = some (rs, u) ∧ rs.length = ws.length ∧
    u.crcR = crcReg (ws.foldl messageStep m) ∧ u.crcOut = crc32 (ws.foldl messageStep m) ∧
    (s.msg = some m → u.msg = some (ws.foldl messageStep m))

/-- Nothing hidden (10_state.md sections 1 and 2, R15, R17, R19): two states with the same register and the same future on the
input ports take the same step: the same register, the same response, whatever was answered or fed before. -/
def Obligations.NothingHidden : Prop :=
  ∀ s t : State, s.crcR = t.crcR → s.inputs = t.inputs →
    ∃ s' t', step s = .next s' ∧ step t = .next t' ∧ s'.crcR = t'.crcR ∧ s'.inputs = t'.inputs ∧ s'.rsp = t'.rsp

/-- The block never halts (70_reset_and_hazards.md section 3, R121; that a host with nothing left to present is idle is the
model's choice, log entry 1): any number of steps from any state has an outcome, with at most one response per edge; and when
the host presents no more, the register stays. -/
def Obligations.BlockNeverHalts : Prop :=
  (∀ (n : Nat) (s : State), ∃ rs u, observe n s = some (rs, u) ∧ rs.length ≤ n) ∧
  (∀ (n : Nat) (s : State), s.inputs = [] → ∃ u, observe n s = some ([], u) ∧ u.crcR = s.crcR ∧ u.msg = s.msg)

/-! ### Reset and power-up -/

/-- 70_reset_and_hazards.md R110: at an edge with `rst` = 1 the register becomes `0xFFFFFFFF` whatever `cmd_valid` and `cmd`
are, no response is given, the command is not executed; the state is the one right after reset, which is the one `CRC_INIT`
leaves, and `CRC_READ` then answers 0.
(The message is ghost state, log entry 3.) -/
def Obligations.ResetHasPriority : Prop :=
  (∀ (s : State) (valid : Bool) (cmd : CmdWord) (rest : List Cycle),
    s.inputs = { rst := true, cmdValid := valid, cmd := cmd } :: rest →
    step s = .next { State.reset with inputs := rest }) ∧
  State.reset.crcR = 0xFFFFFFFF ∧ State.reset.rsp = none ∧ State.reset.msg = some [] ∧
  (∀ (s t : State) (rest : List Cycle), exec .crcInit s = .next t →
    { t with rsp := none, inputs := rest } = { State.reset with inputs := rest }) ∧
  (∀ rest : List Cycle, ∃ t, step (presentNext { State.reset with inputs := rest } (encode .crcRead)) = .next t ∧
    t.rsp = some ⟨0x00, 0x00000000⟩)

/-- 70_reset_and_hazards.md R111, for every `POWERUP_CRC`: `CRC_INIT` makes the register defined; `TC_DECODE` and illegal words
answer as always; the other four compute from `POWERUP_CRC` by their rules; and reading twice answers the same data.
(The message is ghost state, log entry 3.) -/
def Obligations.BeforeTheFirstReset : Prop :=
  ∀ c : Word,
    (State.powerUp c).crcR = c ∧
    (∃ t, exec .crcInit (State.powerUp c) = .next t ∧ t.crcR = 0xFFFFFFFF ∧ t.msg = some []) ∧
    (∀ (w : Word) (s : State), ∃ t u, exec (.tcDecode w) (State.powerUp c) = .next t ∧ exec (.tcDecode w) s = .next u ∧
      t.rsp = u.rsp ∧ t.crcR = c) ∧
    (∀ (cmd : CmdWord) (why : Rejection), decode cmd = .illegal why → ∃ t,
      step (presentNext (State.powerUp c) cmd) = .next t ∧ t.rsp = some ⟨0x03, 0⟩ ∧ t.crcR = c) ∧
    (∀ fs : List Instr, allFeed fs = true → ∃ rs u,
      observe (fs.length + 2) (presentCommands (State.powerUp c) (fs ++ [.crcRead, .crcRead])) =
        some (rs ++ [⟨0x00, crcFrom c (fedMessage fs) ^^^ 0xFFFFFFFF⟩, ⟨0x00, crcFrom c (fedMessage fs) ^^^ 0xFFFFFFFF⟩], u) ∧
      u.crcR = crcFrom c (fedMessage fs) ∧ u.msg = none) ∧
    (∀ w : Word, ∃ t r, exec (.crcCheck w) (State.powerUp c) = .next t ∧ t.rsp = some r ∧ r.data = c ^^^ 0xFFFFFFFF ∧
      (r.code = 0x00 ↔ c ^^^ 0xFFFFFFFF = w))

/-- 70_reset_and_hazards.md R112: from any state, one reset edge or one `CRC_INIT` is all the start-up there is: the register
then holds the remainder of the empty message, and the invariant holds even if it did not before; in either order, or both, the
result is the same; `TC_DECODE` needs none.
(The message is ghost state, log entry 3.) -/
def Obligations.StartUpFromAnyState : Prop :=
  ∀ (s : State) (cmd : CmdWord) (valid : Bool) (rest : List Cycle),
    let r : Cycle := { rst := true, cmdValid := valid, cmd := cmd }
    let i : Cycle := { rst := false, cmdValid := true, cmd := encode .crcInit }
    (∀ first ∈ [[r], [i], [r, i], [i, r], [r, r], [i, i]],
      ∃ rs u, observe first.length { s with inputs := first ++ rest } = some (rs, u) ∧
        u.crcR = crcReg [] ∧ u.msg = some [] ∧ u.inputs = rest ∧ Inv u) ∧
    (∀ (c : Word) (w : Word), ∃ t u, exec (.tcDecode w) (State.powerUp c) = .next t ∧ exec (.tcDecode w) s = .next u ∧
      t.rsp = u.rsp)

/-! ### The notation of listings -/

/-- 30_encoding.md R43: the word of every form of the assembler syntax; an operand outside its range is an assembly error; and
only `.word` can give an illegal word. -/
def Obligations.AssemblerSyntax : Prop :=
  assembleLine .crcInit = .ok [0x0100000000] ∧ assembleLine .crcRead = .ok [0x0400000000] ∧
  (∀ n : Nat, assembleLine (.crcByte n) =
    if n ≤ 255 then .ok [makeWord 0x02 ((BitVec.ofNat 8 n).setWidth 32)] else .error .operandOutOfRange) ∧
  (∀ n : Nat, assembleLine (.crcWord n) =
    if n < 2 ^ 32 then .ok [makeWord 0x03 (BitVec.ofNat 32 n)] else .error .operandOutOfRange) ∧
  (∀ n : Nat, assembleLine (.crcCheck n) =
    if n < 2 ^ 32 then .ok [makeWord 0x05 (BitVec.ofNat 32 n)] else .error .operandOutOfRange) ∧
  (∀ n : Nat, assembleLine (.tcDecode n) =
    if n < 2 ^ 32 then .ok [makeWord 0x10 (BitVec.ofNat 32 n)] else .error .operandOutOfRange) ∧
  (∀ n : Nat, assembleLine (.word n) =
    if n < 2 ^ 40 then .ok [BitVec.ofNat 40 n] else .error .operandOutOfRange) ∧
  (∀ a b c d : Nat, assembleLine (.crcWordText [a, b, c, d]) =
    if a ≤ 127 ∧ b ≤ 127 ∧ c ≤ 127 ∧ d ≤ 127 then
      .ok [makeWord 0x03 (pack4 (BitVec.ofNat 8 a) (BitVec.ofNat 8 b) (BitVec.ofNat 8 c) (BitVec.ofNat 8 d))]
    else .error .operandOutOfRange) ∧
  (∀ a b c d : Nat, assembleLine (.tcDecodeText [a, b, c, d]) =
    if a ≤ 255 ∧ b ≤ 255 ∧ c ≤ 255 ∧ d ≤ 255 then
      .ok [makeWord 0x10 (pack4 (BitVec.ofNat 8 a) (BitVec.ofNat 8 b) (BitVec.ofNat 8 c) (BitVec.ofNat 8 d))]
    else .error .operandOutOfRange) ∧
  (∀ cs : List Nat, cs.length ≠ 4 → assembleLine (.crcWordText cs) = .error .operandOutOfRange ∧
    assembleLine (.tcDecodeText cs) = .error .operandOutOfRange) ∧
  (∀ (l : AsmLine) (ws : List CmdWord), (∀ n, l ≠ .word n) → assembleLine l = .ok ws →
    ∀ c ∈ ws, ∃ i, decode c = .legal i)

/-- 30_encoding.md R44: the expansions of `CRC_STR` and `CRC_SEG`; one response per command of the expansion; and on the block
`CRC_SEG` leaves the remainder of the segment's message. -/
def Obligations.PseudoCommands : Prop :=
  (∀ cs : List Nat, (∀ c ∈ cs, c ≤ 255) →
    assembleLine (.crcStr cs) = .ok (cs.map fun c => makeWord 0x02 ((BitVec.ofNat 8 c).setWidth 32))) ∧
  assembleLine (.crcStr []) = .ok [] ∧
  (∀ (a b c d : Nat) (p : List Nat), a ≤ 127 → b ≤ 127 → c ≤ 127 → d ≤ 127 → (∀ e ∈ p, e ≤ 255) →
    ∃ ws, assembleLine (.crcStr p) = .ok ws ∧
      assembleLine (.crcSeg [a, b, c, d] p) =
        .ok (encode .crcInit ::
          encode (.crcWord (pack4 (BitVec.ofNat 8 a) (BitVec.ofNat 8 b) (BitVec.ofNat 8 c) (BitVec.ofNat 8 d))) :: ws) ∧
      ∀ s : State, ∃ rs u, observe (ws.length + 2) (presentWords s (encode .crcInit ::
          encode (.crcWord (pack4 (BitVec.ofNat 8 a) (BitVec.ofNat 8 b) (BitVec.ofNat 8 c) (BitVec.ofNat 8 d))) :: ws)) =
          some (rs, u) ∧ rs.length = ws.length + 2 ∧
        u.crcR = crcReg ([a, b, c, d].map (BitVec.ofNat 8) ++ p.map (BitVec.ofNat 8)))
end

