-- ==== Sys2Proof/Laws/Decode.lean ====
section
/-! SUPPORT. The fields of a command word: taking a word apart and putting it together. -/

namespace Sys2Proof

theorem makeWord_bit (op : Byte) (arg : Word) (k : Nat) :
    (makeWord op arg).getLsbD k = if k < 32 then arg.getLsbD k else op.getLsbD (k - 32) :=
  BitVec.getLsbD_append

@[simp] theorem opField_makeWord (op : Byte) (arg : Word) : opField (makeWord op arg) = op := by
  apply BitVec.eq_of_getLsbD_eq
  intro i hi
  simp [opField, makeWord_bit, hi]

@[simp] theorem argField_makeWord (op : Byte) (arg : Word) : argField (makeWord op arg) = arg := by
  apply BitVec.eq_of_getLsbD_eq
  intro i hi
  simp [argField, makeWord_bit, hi]

/-- A word is its two fields. -/
theorem makeWord_fields (cmd : CmdWord) : makeWord (opField cmd) (argField cmd) = cmd := by
  apply BitVec.eq_of_getLsbD_eq
  intro i hi
  rw [makeWord_bit]
  split
  · simp [argField, *]
  · have h8 : i - 32 < 8 := by omega
    have h32 : 32 + (i - 32) = i := by omega
    simp [opField, h8, h32]

/-- The low byte of a byte extended with zeros is the byte, its upper bits are zero. -/
@[simp] theorem setWidth_lowByte (b : Byte) : (b.setWidth 32).extractLsb' 0 8 = b := by
  apply BitVec.eq_of_getLsbD_eq
  intro i hi
  simp [hi, show i < 32 by omega]

@[simp] theorem setWidth_highBits (b : Byte) : (b.setWidth 32).extractLsb' 8 24 = 0 := by
  apply BitVec.eq_of_getLsbD_eq
  intro i hi
  simp

/-- A 32-bit value with zero upper bits is its low byte extended. -/
theorem setWidth_of_highBits {a : Word} (h : a.extractLsb' 8 24 = 0) : (a.extractLsb' 0 8).setWidth 32 = a := by
  apply BitVec.eq_of_getLsbD_eq
  intro i hi
  by_cases h8 : i < 8
  · simp [h8, hi]
  · have := congrArg (fun v => v.getLsbD (i - 8)) h
    have h24 : i - 8 < 24 := by omega
    have e : 8 + (i - 8) = i := by omega
    simp [h24, e] at this
    simp [h8, this]

end Sys2Proof
end

