-- ==== Sys2Proof/Laws/State.lean ====
section
/-! SUPPORT. One lemma per field of State per named update, so that no later proof unfolds a record update; and what the
updates do to each other. -/

namespace Sys2Proof.Machine

@[simp] theorem startMessage_crcR (s : State) : (startMessage s).crcR = initReg := rfl
@[simp] theorem startMessage_msg (s : State) : (startMessage s).msg = some [] := rfl
@[simp] theorem startMessage_rsp (s : State) : (startMessage s).rsp = s.rsp := rfl
@[simp] theorem startMessage_inputs (s : State) : (startMessage s).inputs = s.inputs := rfl

@[simp] theorem feedByte_crcR (s : State) (b : Byte) : (feedByte s b).crcR = crcUpd8 s.crcR b := rfl
@[simp] theorem feedByte_msg (s : State) (b : Byte) : (feedByte s b).msg = s.msg.map (· ++ [b]) := rfl
@[simp] theorem feedByte_rsp (s : State) (b : Byte) : (feedByte s b).rsp = s.rsp := rfl
@[simp] theorem feedByte_inputs (s : State) (b : Byte) : (feedByte s b).inputs = s.inputs := rfl

@[simp] theorem respond_crcR (s : State) (code : Byte) (data : Word) : (respond s code data).crcR = s.crcR := rfl
@[simp] theorem respond_msg (s : State) (code : Byte) (data : Word) : (respond s code data).msg = s.msg := rfl
@[simp] theorem respond_rsp (s : State) (code : Byte) (data : Word) : (respond s code data).rsp = some ⟨code, data⟩ := rfl
@[simp] theorem respond_inputs (s : State) (code : Byte) (data : Word) : (respond s code data).inputs = s.inputs := rfl

@[simp] theorem raise_crcR (s : State) (k : FailureKind) (data : Word) : (raise s k data).crcR = s.crcR := rfl
@[simp] theorem raise_msg (s : State) (k : FailureKind) (data : Word) : (raise s k data).msg = s.msg := rfl
@[simp] theorem raise_rsp (s : State) (k : FailureKind) (data : Word) : (raise s k data).rsp = some ⟨k.code, data⟩ := rfl
@[simp] theorem raise_inputs (s : State) (k : FailureKind) (data : Word) : (raise s k data).inputs = s.inputs := rfl

@[simp] theorem answerIllegal_crcR (s : State) : (answerIllegal s).crcR = s.crcR := rfl
@[simp] theorem answerIllegal_msg (s : State) : (answerIllegal s).msg = s.msg := rfl
@[simp] theorem answerIllegal_rsp (s : State) : (answerIllegal s).rsp = some ⟨0x03, 0⟩ := rfl
@[simp] theorem answerIllegal_inputs (s : State) : (answerIllegal s).inputs = s.inputs := rfl

@[simp] theorem resetEdge_crcR (s : State) : (resetEdge s).crcR = initReg := rfl
@[simp] theorem resetEdge_msg (s : State) : (resetEdge s).msg = some [] := rfl
@[simp] theorem resetEdge_rsp (s : State) : (resetEdge s).rsp = none := rfl
@[simp] theorem resetEdge_inputs (s : State) : (resetEdge s).inputs = s.inputs := rfl

@[simp] theorem idleEdge_crcR (s : State) : (idleEdge s).crcR = s.crcR := rfl
@[simp] theorem idleEdge_msg (s : State) : (idleEdge s).msg = s.msg := rfl
@[simp] theorem idleEdge_rsp (s : State) : (idleEdge s).rsp = none := rfl
@[simp] theorem idleEdge_inputs (s : State) : (idleEdge s).inputs = s.inputs := rfl

@[simp] theorem advance_crcR (s : State) : (s.advance).crcR = s.crcR := rfl
@[simp] theorem advance_msg (s : State) : (s.advance).msg = s.msg := rfl
@[simp] theorem advance_rsp (s : State) : (s.advance).rsp = s.rsp := rfl
@[simp] theorem advance_inputs (s : State) : (s.advance).inputs = s.inputs.tail := rfl

@[simp] theorem presentNext_crcR (s : State) (cmd : CmdWord) : (presentNext s cmd).crcR = s.crcR := rfl
@[simp] theorem presentNext_msg (s : State) (cmd : CmdWord) : (presentNext s cmd).msg = s.msg := rfl
@[simp] theorem presentNext_rsp (s : State) (cmd : CmdWord) : (presentNext s cmd).rsp = s.rsp := rfl
@[simp] theorem presentNext_inputs (s : State) (cmd : CmdWord) : (presentNext s cmd).inputs = Cycle.command cmd :: s.inputs := rfl

@[simp] theorem presentWords_crcR (s : State) (cmds : List CmdWord) : (presentWords s cmds).crcR = s.crcR := rfl
@[simp] theorem presentWords_msg (s : State) (cmds : List CmdWord) : (presentWords s cmds).msg = s.msg := rfl
@[simp] theorem presentWords_rsp (s : State) (cmds : List CmdWord) : (presentWords s cmds).rsp = s.rsp := rfl
@[simp] theorem presentWords_inputs (s : State) (cmds : List CmdWord) : (presentWords s cmds).inputs = cmds.map Cycle.command ++ s.inputs := rfl

/-- Only the four fields make a state. -/
theorem state_ext {s t : State} (hc : s.crcR = t.crcR) (hm : s.msg = t.msg) (hr : s.rsp = t.rsp)
    (hi : s.inputs = t.inputs) : s = t := by
  cases s; cases t; simp_all

/-- Consuming the edge at which a word was presented gives back the state. -/
@[simp] theorem presentNext_advance (s : State) (cmd : CmdWord) : (presentNext s cmd).advance = s := rfl

/-- A word presented next is what the coming edge asks for. -/
@[simp] theorem presentNext_presented (s : State) (cmd : CmdWord) :
    (presentNext s cmd).currentCycle.presented = .command cmd := rfl

/-- Presenting a list of words presents its first word next. -/
theorem presentWords_cons (s : State) (cmd : CmdWord) (cmds : List CmdWord) :
    presentWords s (cmd :: cmds) = presentNext (presentWords s cmds) cmd := rfl

@[simp] theorem presentWords_nil (s : State) : presentWords s [] = s := rfl

/-- A response does not look at what is presented, nor the reverse. -/
theorem presentWords_respond (s : State) (code : Byte) (data : Word) (cmds : List CmdWord) :
    presentWords (respond s code data) cmds = respond (presentWords s cmds) code data := rfl

theorem presentWords_append (s : State) (as bs : List CmdWord) :
    presentWords s (as ++ bs) = presentWords (presentWords s bs) as := by
  simp [presentWords]

end Sys2Proof.Machine
end

