-- ==== Sys2Proof/Laws/Ops.lean ====
section
/-! SUPPORT. One lemma per shared operation, saying once what it does: the checksum folds, feeding a sequence, the ports. -/

namespace Sys2Proof.Machine

/-! ### The checksum folds -/

@[simp] theorem crcFrom_nil (c : Word) : crcFrom c [] = c := rfl

@[simp] theorem crcFrom_cons (c : Word) (b : Byte) (s : List Byte) : crcFrom c (b :: s) = crcFrom (crcUpd8 c b) s := rfl

/-- A fold over one sequence after another continues from the register the first left. -/
theorem crcFrom_append (c : Word) (s t : List Byte) : crcFrom c (s ++ t) = crcFrom (crcFrom c s) t := by
  simp [crcFrom]

@[simp] theorem crcSteps_zero (c : Word) : crcSteps 0 c = c := rfl

theorem crcSteps_succ (n : Nat) (c : Word) : crcSteps (n + 1) c = crcSteps n (crcStep1 c) := rfl

/-- Steps compose: `m + n` steps are `m` steps, then `n`. -/
theorem crcSteps_add (m n : Nat) (c : Word) : crcSteps (m + n) c = crcSteps n (crcSteps m c) := by
  induction m generalizing c with
  | zero => simp
  | succ m ih => rw [Nat.succ_add, crcSteps_succ, crcSteps_succ, ih]

/-- One step, bit by bit: bit `k` is bit `k + 1` of the old value, changed where the bit shifted out and `POLY_R` are set. -/
theorem crcStep1_bit (c : Word) (k : Nat) :
    (crcStep1 c).getLsbD k = ((c.getLsbD (k + 1)) ^^ (c.getLsbD 0 && polyR.getLsbD k)) := by
  unfold crcStep1
  cases h : c.getLsbD 0 <;> simp [Nat.add_comm]

/-! ### Feeding a sequence -/

@[simp] theorem feedBytes_nil (s : State) : feedBytes s [] = s := rfl

@[simp] theorem feedBytes_cons (s : State) (b : Byte) (bs : List Byte) :
    feedBytes s (b :: bs) = feedBytes (feedByte s b) bs := rfl

/-- Feeding folds the update over the register. -/
@[simp] theorem feedBytes_crcR (s : State) (bs : List Byte) : (feedBytes s bs).crcR = crcFrom s.crcR bs := by
  induction bs generalizing s with
  | nil => rfl
  | cons b bs ih => simp [ih]

/-- Feeding extends the message by the bytes fed. -/
@[simp] theorem feedBytes_msg (s : State) (bs : List Byte) : (feedBytes s bs).msg = s.msg.map (· ++ bs) := by
  induction bs generalizing s with
  | nil => cases h : s.msg <;> simp [h]
  | cons b bs ih => cases h : s.msg <;> simp [ih, h]

@[simp] theorem feedBytes_rsp (s : State) (bs : List Byte) : (feedBytes s bs).rsp = s.rsp := by
  induction bs generalizing s with
  | nil => rfl
  | cons b bs ih => simp [ih]

@[simp] theorem feedBytes_inputs (s : State) (bs : List Byte) : (feedBytes s bs).inputs = s.inputs := by
  induction bs generalizing s with
  | nil => rfl
  | cons b bs ih => simp [ih]

/-! ### The codes (30_encoding.md R41) -/

@[simp] theorem codeOk_eq : codeOk = 0x00 := rfl
@[simp] theorem code_invalidTypeCode : FailureKind.invalidTypeCode.code = 0x01 := rfl
@[simp] theorem code_invalidChecksum : FailureKind.invalidChecksum.code = 0x02 := rfl
@[simp] theorem code_illegalCommand : FailureKind.illegalCommand.code = 0x03 := rfl

/-! ### The ports -/

/-- A state with nothing presented is at an idle edge. -/
theorem presented_of_no_input {s : State} (h : s.inputs = []) : s.currentCycle.presented = .idle := by
  simp [State.currentCycle, h, Cycle.presented, Cycle.idle]

/-- The edge asks what the head of the inputs says: reset first, then a command, else nothing. -/
theorem presented_of_head {s : State} {c : Cycle} {rest : List Cycle} (h : s.inputs = c :: rest) :
    s.currentCycle.presented =
      if c.rst = true then .reset else if c.cmdValid = true then .command c.cmd else .idle := by
  simp [State.currentCycle, h, Cycle.presented]

end Sys2Proof.Machine
end

