-- ==== Sys2Proof/Laws/PerInstr.lean ====
section
/-! SUPPORT. Families of facts made per command, about the command as syntax. -/

namespace Sys2Proof.Laws.EncodedWord

/-- The word of a command is well formed, and its opcode field is that of the row of the opcode map (30_encoding.md R34) with
its mnemonic. -/
def Statement (i : Instr) : Prop :=
  wellFormed (encode i) = true ∧ ∃ r ∈ opcodeTable, r.mnemonic = i.mnemonic ∧ opField (encode i) = r.op

/-- A word of two fields is well formed where a row has its opcode and accepts its operand field. -/
theorem wellFormed_makeWord {r : OpRow} (h : r ∈ opcodeTable) (arg : Word) (ha : r.format.argOk arg = true) :
    wellFormed (makeWord r.op arg) = true := by
  have ho : (makeWord r.op arg).extractLsb' 32 8 = r.op := opField_makeWord r.op arg
  have hg : (makeWord r.op arg).extractLsb' 0 32 = arg := argField_makeWord r.op arg
  simp only [wellFormed, List.any_eq_true]
  exact ⟨r, h, by simp [ho, hg, ha]⟩

theorem crcInit : Statement .crcInit :=
  ⟨by decide, _, .head _, rfl, by decide⟩

theorem crcByte (b : Byte) : Statement (.crcByte b) := by
  have h : (⟨0x02, "CRC_BYTE", .B, 0x0200000000, 0xFFFFFFFF00⟩ : OpRow) ∈ opcodeTable := by decide
  exact ⟨wellFormed_makeWord h _ (by simp [Format.argOk]), _, h, rfl, opField_makeWord ..⟩

theorem crcWord (w : Word) : Statement (.crcWord w) := by
  have h : (⟨0x03, "CRC_WORD", .W, 0x0300000000, 0xFF00000000⟩ : OpRow) ∈ opcodeTable := by decide
  exact ⟨wellFormed_makeWord h _ rfl, _, h, rfl, opField_makeWord ..⟩

theorem crcRead : Statement .crcRead :=
  ⟨by decide, ⟨0x04, "CRC_READ", .Z, 0x0400000000, 0xFFFFFFFFFF⟩, by decide, rfl, by decide⟩

theorem crcCheck (w : Word) : Statement (.crcCheck w) := by
  have h : (⟨0x05, "CRC_CHECK", .W, 0x0500000000, 0xFF00000000⟩ : OpRow) ∈ opcodeTable := by decide
  exact ⟨wellFormed_makeWord h _ rfl, _, h, rfl, opField_makeWord ..⟩

theorem tcDecode (w : Word) : Statement (.tcDecode w) := by
  have h : (⟨0x10, "TC_DECODE", .W, 0x1000000000, 0xFF00000000⟩ : OpRow) ∈ opcodeTable := by decide
  exact ⟨wellFormed_makeWord h _ rfl, _, h, rfl, opField_makeWord ..⟩

end Sys2Proof.Laws.EncodedWord
end

