-- ==== Sys2Proof/Laws/Step.lean ====
section
/-! SUPPORT. What a command and a step can do, said once: the shape every command's next state has, the inversion of a step,
and how `observe` unfolds. -/

namespace Sys2Proof.Machine

/-- Every command ends in a next state that answers and consumes no input; what it leaves in the register is one of: unchanged,
a new message, bytes fed. -/
theorem exec_shape (i : Instr) (s : State) : ∃ n code data, exec i s = .next (respond n code data) ∧
    (n = s ∧ writesCrc i = false ∨ n = startMessage s ∧ i = .crcInit ∨
      ∃ bs, fedBytes i = some bs ∧ n = feedBytes s bs ∧ code = codeOk) := by
  cases i with
  | crcInit => exact ⟨_, _, _, rfl, .inr (.inl ⟨rfl, rfl⟩)⟩
  | crcByte b => exact ⟨_, _, _, rfl, .inr (.inr ⟨[b], rfl, rfl, rfl⟩)⟩
  | crcWord w => exact ⟨_, _, _, rfl, .inr (.inr ⟨bytes4 w, rfl, rfl, rfl⟩)⟩
  | crcRead => exact ⟨_, _, _, rfl, .inl ⟨rfl, rfl⟩⟩
  | crcCheck w =>
    by_cases h : s.crcOut = w
    · exact ⟨s, _, _, if_pos h, .inl ⟨rfl, rfl⟩⟩
    · exact ⟨s, _, _, if_neg h, .inl ⟨rfl, rfl⟩⟩
  | tcDecode w =>
    by_cases h : tcParseOk w = true
    · exact ⟨s, _, _, if_pos h, .inl ⟨rfl, rfl⟩⟩
    · exact ⟨s, _, _, if_neg h, .inl ⟨rfl, rfl⟩⟩

/-- The two outcomes of `CRC_CHECK`, and of `TC_DECODE`. -/
theorem exec_crcCheck_of_eq {s : State} {w : Word} (h : s.crcOut = w) :
    exec (.crcCheck w) s = .next (respond s codeOk s.crcOut) := if_pos h

theorem exec_crcCheck_of_ne {s : State} {w : Word} (h : s.crcOut ≠ w) :
    exec (.crcCheck w) s = .next (raise s .invalidChecksum s.crcOut) := if_neg h

theorem exec_tcDecode_of_letters (s : State) {w : Word} (h : tcParseOk w = true) :
    exec (.tcDecode w) s = .next (respond s codeOk (tcFlagData w)) := if_pos h

theorem exec_tcDecode_of_other (s : State) {w : Word} (h : tcParseOk w = false) :
    exec (.tcDecode w) s = .next (raise s .invalidTypeCode 0) := if_neg (by simp [h])

/-- Everything a step can do: a reset edge, an idle edge, a command, an illegal word. -/
theorem step_cases {s t : State} (h : step s = .next t) :
    (s.currentCycle.presented = .reset ∧ t = resetEdge s.advance) ∨
    (s.currentCycle.presented = .idle ∧ t = idleEdge s.advance) ∨
    (∃ cmd i, s.currentCycle.presented = .command cmd ∧ decode cmd = .legal i ∧ exec i s.advance = .next t) ∨
    (∃ cmd why, s.currentCycle.presented = .command cmd ∧ decode cmd = .illegal why ∧ t = answerIllegal s.advance) := by
  unfold step at h
  cases hp : s.currentCycle.presented with
  | reset => simp_all
  | idle => simp_all
  | command cmd =>
    cases hd : decode cmd with
    | legal i => simp_all
    | illegal why => simp_all

/-- A step of a state whose host presents a word with a meaning. -/
theorem step_of_legal {s : State} {cmd : CmdWord} {i : Instr} (hp : s.currentCycle.presented = .command cmd)
    (hd : decode cmd = .legal i) : step s = exec i s.advance := by
  simp [step, hp, hd]

/-- A step of a state whose host presents an illegal word. -/
theorem step_of_illegal {s : State} {cmd : CmdWord} {why : Rejection} (hp : s.currentCycle.presented = .command cmd)
    (hd : decode cmd = .illegal why) : step s = .next (answerIllegal s.advance) := by
  simp [step, hp, hd]

@[simp] theorem observe_zero (s : State) : observe 0 s = some ([], s) := rfl

/-- A run of `n + 1` steps is its first step and the run of the rest. -/
theorem observe_succ_of_next {n : Nat} {s t : State} (h : step s = .next t) :
    observe (n + 1) s = (observe n t).map fun q => (t.rsp.toList ++ q.1, q.2) := by
  simp [observe, h]

end Sys2Proof.Machine
end

