-- ==== Sys2Proof/Tests/Slice0.lean ====
section
/-! SUPPORT. Tests of one step or one function each, their expected values taken from spec/ (the rule or the vector of
95_test_vectors.md is named in each comment), and for every statement with hypotheses a witness that meets them together. -/

namespace Sys2Proof.Tests

open Sys2Proof.Machine

/-- The register and the response after one step. -/
def after (s : State) : Option (Word × Option RspWord) :=
  match step s with
  | .next t => some (t.crcR, t.rsp.map Response.word)
  | .fault _ => none
  | .refused _ => none

/-- A block whose register holds `c`, with one word presented. -/
def given (c : Word) (cmd : CmdWord) : State := presentNext (State.powerUp c) cmd

/-! ### Well-formed words: each check refuses an ill-formed one (30_encoding.md R33, R37; V50 to V58) -/

theorem test_wellFormed_each_row : [(0x0100000000 : CmdWord), 0x02000000FF, 0x03FFFFFFFF, 0x0400000000, 0x05AE426082,
    0x1000000000].all wellFormed = true := by decide

theorem test_wellFormed_refuses_undefined_opcode :
    [(0x0000000000 : CmdWord), 0xFFFFFFFFFF, 0x0600000000, 0x0F00000000, 0x1100000000].any wellFormed = false := by decide

theorem test_wellFormed_refuses_operand_of_format_Z : wellFormed 0x0100000001 = false ∧ wellFormed 0x0480000000 = false := by
  decide

theorem test_wellFormed_refuses_high_bits_of_format_B :
    wellFormed 0x0200000152 = false ∧ wellFormed 0x0201000000 = false := by decide

/-! ### Decoding: words written out from R32 to R34, and the rejections by name -/

theorem test_decode_CRC_INIT : decode 0b0000000100000000000000000000000000000000 = .legal .crcInit := by decide
theorem test_decode_CRC_BYTE : decode 0b0000001000000000000000000000000001100001 = .legal (.crcByte 0x61) := by decide
theorem test_decode_CRC_WORD : decode 0b0000001101010010011101010101001101110100 = .legal (.crcWord 0x52755374) := by decide
theorem test_decode_CRC_READ : decode 0b0000010000000000000000000000000000000000 = .legal .crcRead := by decide
theorem test_decode_CRC_CHECK : decode 0b0000010110101110010000100110000010000010 = .legal (.crcCheck 0xAE426082) := by decide
theorem test_decode_TC_DECODE : decode 0b0001000001010010011101010101001101110100 = .legal (.tcDecode 0x52755374) := by decide

theorem test_decode_rejects_by_name :
    decode 0x0100000001 = .illegal .nonzeroArg ∧ decode 0x0480000000 = .illegal .nonzeroArg ∧
    decode 0x0200000152 = .illegal .nonzeroHighArg ∧ decode 0x0201000000 = .illegal .nonzeroHighArg ∧
    decode 0x1152755374 = .illegal .undefinedOpcode ∧ decode 0x0000000000 = .illegal .undefinedOpcode := by decide

theorem test_decodeBytes_five_bytes : decodeBytes [0x03, 0x52, 0x75, 0x53, 0x74, 0x04] = (.legal (.crcWord 0x52755374), [0x04]) := by
  decide

theorem test_decodeBytes_truncated : decodeBytes [0x04, 0, 0, 0] = (.illegal .truncated, [0x04, 0, 0, 0]) := by decide

theorem test_decodeTableWord : decodeTableWord 40 0x0300000000 = some (.crcWord 0) ∧
    decodeTableWord 40 0x0600000000 = none := by decide

/-- The opcode map's match and mask select what the decoder reads, on the words of R34. -/
theorem test_table_match_words_decode : opcodeTable.map (fun r => decode r.matchBits) =
    [.legal .crcInit, .legal (.crcByte 0), .legal (.crcWord 0), .legal .crcRead, .legal (.crcCheck 0),
      .legal (.tcDecode 0)] := by decide

/-! ### The checksum functions (V1, V12, V16, V19, V30; 40_crc.md R52, R53, R56) -/

theorem test_crcStep1_V19 : crcStep1 0xFFFFFFFF = 0x92477CDF ∧ crcStep1 0xEDB88320 = 0x76DC4190 ∧
    crcStep1 0x80000000 = 0x40000000 := by decide

theorem test_crcUpd8_V19 : crcUpd8 0x12345678 0x9A = 0x4E16B702 ∧ crcUpd8 0xDEADBEEF 0x42 = 0xA8B972EB ∧
    crcUpd8 0x80000000 0x00 = 0x00800000 := by decide

theorem test_crc32_check_value_V12 : crc32 [0x31, 0x32, 0x33, 0x34, 0x35, 0x36, 0x37, 0x38, 0x39] = 0xCBF43926 := by decide +kernel

/-- V1: the one checksum the source prints, 2882656334, of `"RuSt"` and the 42-byte text. -/
theorem test_crc32_source_example_V1 : crc32 ("RuStThis is where your secret message will be!".toList.map
    fun c => BitVec.ofNat 8 c.toNat) = 2882656334 := by decide +kernel

theorem test_table_V30 : tableEntry 0x01 = 0x77073096 ∧ tableEntry 0xB7 = 0x5505262F ∧ tableEntry 0xFF = 0x2D02EF8D := by decide

theorem test_parameters_R7 : poly = 0x04C11DB7 ∧ poly.reverse = polyR ∧ residue = 0xDEBB20E3 := by decide +kernel

/-! ### Each command, one step (V20 to V24, V40, V42) -/

theorem test_CRC_INIT_V20 : after (given 0x12345678 0x0100000000) = some (0xFFFFFFFF, some 0x0000000000) := by decide

theorem test_CRC_BYTE_V21 : after (given 0xFFFFFFFF 0x0200000061) = some (0x174841BC, some 0x00E8B7BE43) := by decide

theorem test_CRC_BYTE_largest_V21c : after (given 0xFFFFFFFF 0x02000000FF) = some (0x00FFFFFF, some 0x00FF000000) := by decide

theorem test_CRC_WORD_V22 : after (given 0xFFFFFFFF 0x0352755374) = some (0x2B7BF6C3, some 0x00D484093C) := by decide

theorem test_CRC_WORD_no_type_code_check_V22c : after (given 0xFFFFFFFF 0x0352753174) = some (0x7CB0FFE6, some 0x00834F0019) := by
  decide

theorem test_CRC_READ_V23 : after (given 0x542E27B1 0x0400000000) = some (0x542E27B1, some 0x00ABD1D84E) := by decide

theorem test_CRC_CHECK_equal_V24 : after (given 0x51BD9F7D 0x05AE426082) = some (0x51BD9F7D, some 0x00AE426082) := by decide

theorem test_CRC_CHECK_one_bit_off_V24b : after (given 0x51BD9F7D 0x05AE426083) = some (0x51BD9F7D, some 0x02AE426082) := by
  decide

theorem test_TC_DECODE_V40 : after (given 0 0x1052755374) = some (0, some 0x000000001D) ∧
    after (given 0 0x1052757374) = some (0, some 0x0000000009) ∧
    after (given 0 0x10415A617A) = some (0, some 0x000000000B) ∧
    after (given 0 0x1074455874) = some (0, some 0x000000001E) := by decide

theorem test_TC_DECODE_fails_V42 : [(0x52753174 : Word), 0x40755374, 0x525B5374, 0x52756074, 0x5275537B, 0xD2755374, 0x52F55374,
    0x5275D374, 0x527553F4, 0x00000000, 0xFFFFFFFF].all (fun w =>
      after (given 7 (makeWord 0x10 w)) == some (7, some 0x0100000000)) = true := by decide

/-! ### Illegal words, idle edges and reset (V50 to V58; R13, R93, R110) -/

theorem test_illegal_words_V50_to_V58 : [(0x0000000000 : CmdWord), 0xFFFFFFFFFF, 0x0600000000, 0x0F00000000, 0x1100000000,
    0x0100000001, 0x0480000000, 0x0200000152, 0x0201000000, 0x1152755374].all (fun cmd =>
      after (given 0x7CB0FFE6 cmd) == some (0x7CB0FFE6, some 0x0300000000)) = true := by decide

theorem test_reset_wins_over_a_command :
    after { State.powerUp 0x12345678 with inputs := [⟨true, true, 0x0200000061⟩] } = some (0xFFFFFFFF, none) := by decide

theorem test_idle_edge_keeps_the_register :
    after { State.powerUp 0x12345678 with inputs := [⟨false, false, 0x0100000000⟩] } = some (0x12345678, none) ∧
    after (State.powerUp 0x12345678) = some (0x12345678, none) := by decide

theorem test_withFetchWord_runs_next : after (State.reset.withFetchWord 40 0x0300000000) = some (0xDEBB20E3, some 0x002144DF1C) := by
  decide

/-! ### The notation of listings (R43, R44, R9) -/

theorem test_assemble_listing : assembleText ["CRC_INIT            ; start".toList, "CRC_WORD \"RuSt\"".toList,
      "  CRC_BYTE 'a'".toList, "".toList, "CRC_BYTE 0x00".toList, "CRC_CHECK 0xABD1D84E".toList, ".word 0x0600000000".toList] =
    .ok [0x0100000000, 0x0352755374, 0x0200000061, 0x0200000000, 0x05ABD1D84E, 0x0600000000] := by decide

theorem test_assemble_pseudo_command : assembleText ["CRC_SEG \"RuSt\", \"a;\"".toList] =
    .ok [0x0100000000, 0x0352755374, 0x0200000061, 0x020000003B] := by decide

theorem test_assemble_errors : assembleText ["CRC_BYTE 256".toList] = .error .operandOutOfRange ∧
    assembleText ["CRC_WORD \"RuS\"".toList] = .error .operandOutOfRange ∧
    assembleText ["crc_init".toList] = .error .syntaxError := by decide

/-- R9: `0x`, `0b` and decimal numbers; hexadecimal letters in either case; a digit outside the base is no number. -/
theorem test_readNumber : readNumber "0xaBf0".toList = some 44016 ∧ readNumber "0b101".toList = some 5 ∧
    readNumber "290".toList = some 290 ∧ readNumber "0b12".toList = none ∧ readNumber "12A".toList = none ∧
    readNumber "0xG".toList = none := by decide

/-- The model's choice of log entry 11: a character above 127 has its Unicode scalar value as code. -/
theorem test_character_above_127 : assembleText ["CRC_STR \"é\"".toList] = .ok [0x02000000E9] ∧
    assembleText ["CRC_WORD \"Rué!\"".toList] = .error .operandOutOfRange ∧
    assembleText ["CRC_STR \"Ā\"".toList] = .error .operandOutOfRange := by decide

/-! ### Host sequences (R24, R67; the segment of P2) -/

theorem test_verifySegment_P2 :
    verifySegment [0, 0, 0, 0, 0x49, 0x45, 0x4E, 0x44, 0xAE, 0x42, 0x60, 0x82] 0 =
      some (.tcDecode 0x49454E44, [.crcInit, .crcWord 0x49454E44, .crcCheck 0xAE426082]) := by decide

/-! ### Witnesses: for every statement with hypotheses, a state and operands that meet them together -/

theorem witness_StepRunsDecodedCommand : ∃ (s : State) (cmd : CmdWord) (rest : List Cycle) (i : Instr),
    s.inputs = { rst := false, cmdValid := true, cmd := cmd } :: rest ∧ decode cmd = .legal i :=
  ⟨given 5 0x05AE426082, 0x05AE426082, [], .crcCheck 0xAE426082, rfl, by decide⟩

theorem witness_StepFunctionOfPorts :
    (∃ (s : State) (c : Cycle) (rest : List Cycle), s.inputs = c :: rest ∧ c.rst = false ∧ c.cmdValid = true) ∧
    (∃ (s : State) (c : Cycle) (rest : List Cycle), s.inputs = c :: rest ∧ c.rst = false ∧ c.cmdValid = false) ∧
    (∃ (s t s' t' : State) (cmd : CmdWord), s ≠ t ∧ s.crcR = t.crcR ∧ step (presentNext s cmd) = .next s' ∧
      step (presentNext t cmd) = .next t') :=
  ⟨⟨given 5 0x0600000000, _, _, rfl, rfl, rfl⟩,
   ⟨{ State.reset with inputs := [⟨false, false, 0x0100000000⟩] }, _, _, rfl, rfl, rfl⟩,
   ⟨State.reset, State.powerUp 0xFFFFFFFF, _, _, 0x0400000000, by decide, rfl, rfl, rfl⟩⟩

theorem witness_DecodingTable : ∃ a b c d e f : Byte × Word, (a.1 = 0x01 ∧ a.2 = 0) ∧
    (b.1 = 0x02 ∧ b.2.extractLsb 31 8 = 0 ∧ b.2 ≠ 0) ∧ (c.1 = 0x03 ∧ c.2 ≠ 0) ∧ (d.1 = 0x04 ∧ d.2 = 0) ∧
    (e.1 = 0x02 ∧ e.2.extractLsb 31 8 ≠ 0) ∧ (f.1 = 0x11 ∧ f.2 ≠ 0) :=
  ⟨(0x01, 0), (0x02, 0xFF), (0x03, 0xFFFFFFFF), (0x04, 0), (0x02, 0x100), (0x11, 0x52755374), by decide⟩

theorem witness_OpcodeMapSelects :
    (∃ r ∈ opcodeTable, ∃ q ∈ opcodeTable, ∃ cmd : CmdWord, cmd &&& r.maskBits = r.matchBits ∧ cmd &&& q.maskBits = q.matchBits) ∧
    (∃ cmd : CmdWord, ∀ r ∈ opcodeTable, cmd.extractLsb 39 32 ≠ r.op) :=
  ⟨⟨_, .head _, _, .head _, 0x0100000000, by decide, by decide⟩, ⟨0x0600000000, by decide⟩⟩

theorem witness_illegal_word : ∃ (cmd : CmdWord) (why : Rejection), decode cmd = .illegal why :=
  ⟨0x0100000001, .nonzeroArg, by decide⟩

theorem witness_EncodeOfDecode : (∃ (cmd : CmdWord) (i : Instr), decode cmd = .legal i) ∧
    (∃ i j : Instr, encode i = encode j) :=
  ⟨⟨0x02000000FF, .crcByte 0xFF, by decide⟩, ⟨.crcByte 0xFF, .crcByte 0xFF, rfl⟩⟩

theorem witness_four_letters : isAlpha 0x41 = true ∧ isAlpha 0x5A = true ∧ isAlpha 0x61 = true ∧ isAlpha 0x7A = true := by decide

theorem witness_ResponseByOutcome_operands : (∀ b ∈ bytes4 0x415A617A, isAlpha b = true) ∧
    (∃ b ∈ bytes4 0x415A607A, isAlpha b = false) := by decide

theorem witness_PolynomialForm : (31 : Nat) < 32 := by decide

theorem witness_DifferenceOfChecksums : ∃ s t : List Byte, s.length = t.length ∧ s ≠ t := ⟨[0x52], [0x53], by decide⟩

theorem witness_SingleBitIsDetected : ∃ (u v : List Byte) (b : Byte) (k : Nat) (fs : List Instr), k < 8 ∧ allFeed fs = true ∧
    fedMessage fs = u ++ (b ^^^ BitVec.twoPow 8 k) :: v :=
  ⟨[0x52, 0x75, 0x53, 0x74], [], 0x21, 7, [.crcWord 0x52755374, .crcByte 0xA1], by decide⟩

theorem witness_CrcInitStartsMessage : (∃ arg : Word, arg ≠ 0) ∧ (∃ s t : State, exec .crcInit s = .next t) ∧
    (∃ s : State, s.crcR = 0x12345678) := ⟨⟨1, by decide⟩, ⟨State.reset, _, rfl⟩, ⟨State.powerUp 0x12345678, rfl⟩⟩

theorem witness_CrcByteFeedsOneByte : (∃ arg : Word, arg.extractLsb 31 8 ≠ 0) ∧ (∃ s : State, s.crcR = 0xFFFFFFFF) :=
  ⟨⟨0x100, by decide⟩, ⟨State.reset, rfl⟩⟩

theorem witness_CrcReadAnswersChecksum : (∃ s t : State, exec .crcInit s = .next t) ∧
    (∃ (s : State) (m : List Byte), s.crcR = crcReg m) ∧ (∃ s : State, s.crcR = 0x542E27B1) :=
  ⟨⟨State.reset, _, rfl⟩, ⟨State.reset, [], rfl⟩, ⟨State.powerUp 0x542E27B1, rfl⟩⟩

theorem witness_CrcCheckCompares : (∃ (s : State) (w : Word), s.crcR ^^^ 0xFFFFFFFF = w) ∧
    (∃ (s : State) (w : Word), s.crcR ^^^ 0xFFFFFFFF ≠ w) ∧ (∃ (s t : State) (w : Word), exec (.crcCheck w) s = .next t) ∧
    (∃ s : State, s.crcR = 0x51BD9F7D) :=
  ⟨⟨State.reset, 0, by decide⟩, ⟨State.reset, 1, by decide⟩, ⟨State.reset, _, 1, rfl⟩, ⟨State.powerUp 0x51BD9F7D, rfl⟩⟩

theorem witness_TcDecodeReportsPredicates :
    (∃ w : Word, isAlpha (w.extractLsb 31 24) = true ∧ isAlpha (w.extractLsb 23 16) = true ∧
      isAlpha (w.extractLsb 15 8) = true ∧ isAlpha (w.extractLsb 7 0) = true) ∧
    (∃ w : Word, (isAlpha (w.extractLsb 31 24) && isAlpha (w.extractLsb 23 16) && isAlpha (w.extractLsb 15 8) &&
      isAlpha (w.extractLsb 7 0)) = false) ∧
    (∃ (s t s' t' : State) (w : Word), s ≠ t ∧ exec (.tcDecode w) s = .next s' ∧ exec (.tcDecode w) t = .next t') :=
  ⟨⟨0x415A617A, by decide⟩, ⟨0x415A617B, by decide⟩, ⟨State.reset, State.powerUp 0, _, _, 0x52755374, by decide, rfl, rfl⟩⟩

theorem witness_CommandFrame : ∃ (i : Instr) (s t : State), exec i s = .next t ∧ ∃ w, i = .tcDecode w :=
  ⟨.tcDecode 0, State.reset, _, rfl, _, rfl⟩

theorem witness_ReadersMayBeRepeated : ∃ (i : Instr) (cmds : List CmdWord) (s t : State), writesCrc i = false ∧
    (∀ c ∈ cmds, keepsCrc c = true) ∧ step (presentNext s (encode i)) = .next t :=
  ⟨.crcCheck 3, [0x0400000000, 0x0100000001, 0x1052755374], State.reset, _, rfl, List.all_eq_true.mp (by decide), rfl⟩

theorem witness_ReadThenCheckAccepts : ∃ (s t : State) (v : Word) (cmds : List CmdWord), exec .crcRead s = .next t ∧
    t.rsp = some ⟨0x00, v⟩ ∧ (∀ c ∈ cmds, keepsCrc c = true) :=
  ⟨State.reset, _, 0, [0x0500000001, 0xFFFFFFFFFF], rfl, by decide, List.all_eq_true.mp (by decide)⟩

theorem witness_allFeed : ∃ fs : List Instr, allFeed fs = true ∧ fedMessage fs = [0x52, 0x75, 0x53, 0x74, 0x61] :=
  ⟨[.crcWord 0x52755374, .crcByte 0x61], by decide⟩

theorem witness_VerifySegmentIsExact : ∃ (bytes : List Byte) (length : Nat), bytes.length = 12 + length :=
  ⟨[0, 0, 0, 0, 0x49, 0x45, 0x4E, 0x44, 0xAE, 0x42, 0x60, 0x82], 0, rfl⟩

theorem witness_SerializedSegmentVerifies : ∃ (s t : State) (tc v : Word) (p : List Byte) (rs : List Response),
    observe (p.length + 3) (presentCommands s (newSegmentCommands tc p)) = some (rs ++ [⟨0x00, v⟩], t) :=
  ⟨State.reset, ⟨0x51BD9F7D, some [0x49, 0x45, 0x4E, 0x44], some ⟨0, 0xAE426082⟩, []⟩, 0x49454E44, 0xAE426082, [],
    [⟨0, 0⟩, ⟨0, 0xAE426082⟩], by decide⟩

theorem witness_SegmentSlices : ∃ (bytes : List Byte) (length k : Nat), bytes.length = 12 + length ∧ k < 4 + length :=
  ⟨List.replicate 12 0, 0, 3, by decide⟩

theorem witness_MessagesConcatenate : ∃ (s : State) (m : List Byte) (fs gs : List Instr) (ws : List CmdWord),
    s.crcR = crcReg m ∧ allFeed fs = true ∧ allFeed gs = true ∧ (∀ c ∈ ws, keepsCrc c = true) :=
  ⟨State.reset, [], [.crcByte 0x61], [.crcByte 0x62, .crcByte 0x63], [0x0400000000], by decide, rfl, rfl,
    List.all_eq_true.mp (by decide)⟩

theorem witness_AlphabeticBytes : (∃ b : Byte, 0x30 ≤ b ∧ b ≤ 0x39) ∧ (∃ b : Byte, b.getLsbD 7 = true) :=
  ⟨⟨0x39, by decide⟩, ⟨0x80, by decide⟩⟩

theorem witness_CaseIsBitFive : (∃ b : Byte, isAlpha b = true) ∧
    (∃ (s t : State) (w : Word), tcParseOk w = false ∧ exec (.tcDecode w) s = .next t) :=
  ⟨⟨0x7A, by decide⟩, ⟨State.reset, _, 0x52753174, by decide, rfl⟩⟩

theorem witness_ParsingTypeCodes : ∃ w : Word, isAlpha (byte0 w) = true ∧ isAlpha (byte1 w) = true ∧
    isLower (byte2 w) = true ∧ isAlpha (byte3 w) = true := ⟨0x52757374, by decide⟩

theorem witness_tcParseOk : ∃ w : Word, tcParseOk w = true := ⟨0x415A617A, by decide⟩

theorem witness_TcResponseLaws : (∃ (s t : State) (r : Response), exec (.tcDecode 0x52755374) s = .next t ∧ t.rsp = some r ∧
    r.code = 0x00) ∧ (∃ (s t : State) (r : Response), exec (.tcDecode 0x52753174) s = .next t ∧ t.rsp = some r ∧
    r.code = 0x01) := ⟨⟨State.reset, _, _, rfl, rfl, by decide⟩, ⟨State.reset, _, _, rfl, rfl, by decide⟩⟩

theorem witness_FailuresLeaveNoTrace : ∃ (s t : State) (r : Response), step s = .next t ∧ t.rsp = some r ∧ r.code ≠ 0x00 :=
  ⟨given 9 0x0500000000, _, _, rfl, rfl, by decide⟩

theorem witness_FailureKindsExactly : ∃ (s t : State) (r : Response), step s = .next t ∧ t.rsp = some r :=
  ⟨given 9 0x0600000000, _, _, rfl, rfl⟩

theorem witness_WhoReadsAndWritesTheRegister : (∃ s t : State, step s = .next t ∧ s.inputs = []) ∧
    (∃ s t : State, step s = .next t ∧ ∃ c ∈ s.inputs.head?, c.rst = true) ∧
    (∃ s t : State, step s = .next t ∧ ∃ c ∈ s.inputs.head?, c.rst = false ∧ c.cmdValid = false) ∧
    (∃ s t : State, step s = .next t ∧ ∃ c ∈ s.inputs.head?, c.rst = false ∧ c.cmdValid = true) ∧
    (∃ (s s' : State) (cmd : CmdWord), (∀ i, decode cmd = .legal i → readsCrc i = false) ∧
      step (presentNext s cmd) = .next s') ∧ (∃ i : Instr, readsCrc i = true) := by
  refine ⟨⟨State.reset, _, rfl, rfl⟩, ⟨{ State.reset with inputs := [⟨true, true, 0⟩] }, _, rfl, _, rfl, rfl⟩,
    ⟨{ State.reset with inputs := [⟨false, false, 0x0200000061⟩] }, _, rfl, _, rfl, rfl, rfl⟩,
    ⟨given 9 0x0400000000, _, rfl, _, rfl, rfl, rfl⟩, ⟨State.reset, _, 0x0100000000, ?_, rfl⟩, ⟨.crcCheck 0, rfl⟩⟩
  intro i hi
  have : decode 0x0100000000 = .legal .crcInit := by decide
  rw [this] at hi
  cases hi
  rfl

theorem witness_InvariantIsKept : ∃ s t : State, Inv s ∧ step s = .next t ∧ t ≠ s :=
  ⟨presentNext State.reset 0x0200000061, _,
    ⟨fun m h => by cases h; rfl, fun r h => by cases h⟩, rfl, by decide⟩

theorem witness_RegisterFollowsTheMessage : ∃ (s : State) (m : List Byte), s.crcR = crcReg m ∧ s.msg = some m ∧ m ≠ [] :=
  ⟨{ State.reset with crcR := 0x174841BC, msg := some [0x61] }, [0x61], by decide⟩

theorem witness_NothingHidden : ∃ s t : State, s.crcR = t.crcR ∧ s.inputs = t.inputs ∧ s.msg ≠ t.msg ∧ s.rsp ≠ t.rsp :=
  ⟨{ State.reset with rsp := some ⟨2, 7⟩ }, State.powerUp 0xFFFFFFFF, by decide⟩

theorem witness_BlockNeverHalts : ∃ s : State, s.inputs = [] := ⟨State.reset, rfl⟩

theorem witness_ResetHasPriority : (∃ (s : State) (valid : Bool) (cmd : CmdWord) (rest : List Cycle),
    s.inputs = { rst := true, cmdValid := valid, cmd := cmd } :: rest ∧ valid = true) ∧
    (∃ s t : State, exec .crcInit s = .next t) :=
  ⟨⟨{ State.reset with inputs := [⟨true, true, 0x0200000061⟩] }, _, _, _, rfl, rfl⟩, ⟨State.reset, _, rfl⟩⟩

theorem witness_AssemblerSyntax : (∃ cs : List Nat, cs.length ≠ 4) ∧
    (∃ (l : AsmLine) (ws : List CmdWord), (∀ n, l ≠ .word n) ∧ assembleLine l = .ok ws ∧ ws ≠ []) :=
  ⟨⟨[82, 117, 83], by decide⟩, ⟨.crcByte 255, [0x02000000FF], fun _ h => (nomatch h), by decide, by decide⟩⟩

theorem witness_PseudoCommands : ∃ (a b c d : Nat) (p : List Nat), a ≤ 127 ∧ b ≤ 127 ∧ c ≤ 127 ∧ d ≤ 127 ∧ (∀ e ∈ p, e ≤ 255) :=
  ⟨82, 117, 83, 127, [255, 0], by decide⟩

end Sys2Proof.Tests
end

section
/-! The step function of 10_state.md R13: what each kind of edge does, that every presented word is answered, and that the
register and the command word alone decide the new register and the response. -/

namespace Sys2Proof.Machine

/-! ### What the ports ask for -/

theorem Cycle.presented_eq_reset_iff (c : Cycle) : c.presented = .reset ↔ c.rst = true := by
  cases hr : c.rst <;> cases hv : c.cmdValid <;> simp [Cycle.presented, hr, hv]

theorem Cycle.presented_eq_idle_iff (c : Cycle) : c.presented = .idle ↔ c.rst = false ∧ c.cmdValid = false := by
  cases hr : c.rst <;> cases hv : c.cmdValid <;> simp [Cycle.presented, hr, hv]

theorem Cycle.presented_eq_command_iff (c : Cycle) (cmd : CmdWord) :
    c.presented = .command cmd ↔ c.rst = false ∧ c.cmdValid = true ∧ c.cmd = cmd := by
  cases hr : c.rst <;> cases hv : c.cmdValid <;> simp [Cycle.presented, hr, hv]

theorem currentCycle_of_head {s : State} {c : Cycle} {rest : List Cycle} (h : s.inputs = c :: rest) :
    s.currentCycle = c := by
  simp [State.currentCycle, h]

theorem advance_of_head {s : State} {c : Cycle} {rest : List Cycle} (h : s.inputs = c :: rest) :
    s.advance = { s with inputs := rest } := by
  simp [State.advance, h]

/-! ### The edges -/

/-- An edge without a command and without reset. -/
theorem step_of_idle {s : State} (hp : s.currentCycle.presented = .idle) : step s = .next (idleEdge s.advance) := by
  simp [step, hp]

/-- An edge at which a word is presented, by its decoding. -/
theorem step_of_command {s : State} {cmd : CmdWord} (hp : s.currentCycle.presented = .command cmd) :
    step s = match decode cmd with
      | .legal i => exec i s.advance
      | .illegal _ => .next (answerIllegal s.advance) := by
  cases hd : decode cmd with
  | legal i => exact step_of_legal hp hd
  | illegal why => exact step_of_illegal hp hd

/-- Every command answers and consumes no input. -/
theorem exec_answers (i : Instr) (s : State) : ∃ t r, exec i s = .next t ∧ t.rsp = some r ∧ t.inputs = s.inputs := by
  obtain ⟨n, code, data, hexec, hn⟩ := exec_shape i s
  refine ⟨_, _, hexec, respond_rsp .., ?_⟩
  rw [respond_inputs]
  obtain ⟨rfl, -⟩ | ⟨rfl, -⟩ | ⟨bs, -, rfl, -⟩ := hn
  · rfl
  · exact startMessage_inputs s
  · exact feedBytes_inputs s bs

/-- The block answers every word, legal or not. -/
theorem step_presentNext_answers (s : State) (cmd : CmdWord) :
    ∃ t r, step (presentNext s cmd) = .next t ∧ t.rsp = some r ∧ t.inputs = s.inputs := by
  rw [step_of_command (presentNext_presented s cmd), presentNext_advance]
  cases decode cmd with
  | legal i => exact exec_answers i s
  | illegal why => exact ⟨_, _, rfl, answerIllegal_rsp s, answerIllegal_inputs s⟩

/-- `rsp_valid` is `cmd_valid & ~rst` of the edge's ports (10_state.md section 3), with or without inputs left. -/
theorem step_rspValid {s t : State} (h : step s = .next t) :
    t.rspValid = (s.currentCycle.cmdValid && !s.currentCycle.rst) := by
  obtain ⟨hp, rfl⟩ | ⟨hp, rfl⟩ | ⟨cmd, i, hp, -, hexec⟩ | ⟨cmd, why, hp, -, rfl⟩ := step_cases h
  · rw [Cycle.presented_eq_reset_iff] at hp
    simp [State.rspValid, hp]
  · obtain ⟨-, hv⟩ := (Cycle.presented_eq_idle_iff _).mp hp
    simp [State.rspValid, hv]
  · obtain ⟨hr, hv, -⟩ := (Cycle.presented_eq_command_iff _ _).mp hp
    obtain ⟨t', r, hexec', hrsp, -⟩ := exec_answers i s.advance
    obtain rfl : t' = t := by simpa [hexec] using hexec'.symm
    simp [State.rspValid, hrsp, hr, hv]
  · obtain ⟨hr, hv, -⟩ := (Cycle.presented_eq_command_iff _ _).mp hp
    simp [State.rspValid, hr, hv]

/-! ### What a step depends on -/

/-- The new register and the response of a command depend on the old register only. -/
theorem exec_congr_crcR (i : Instr) {s t s' t' : State} (hc : s.crcR = t.crcR) (hs : exec i s = .next s')
    (ht : exec i t = .next t') : s'.crcR = t'.crcR ∧ s'.rsp = t'.rsp := by
  have hout : s.crcOut = t.crcOut := congrArg (· ^^^ xorOut) hc
  cases i with
  | crcInit => cases hs; cases ht; exact ⟨rfl, rfl⟩
  | crcByte b => cases hs; cases ht; simp [State.crcOut, hc]
  | crcWord w => cases hs; cases ht; simp [State.crcOut, hc]
  | crcRead => cases hs; cases ht; simp [hc, hout]
  | crcCheck w =>
    by_cases hw : t.crcOut = w
    · rw [exec_crcCheck_of_eq (hout.trans hw)] at hs
      rw [exec_crcCheck_of_eq hw] at ht
      cases hs; cases ht; simp [hc, hout]
    · rw [exec_crcCheck_of_ne (hout ▸ hw)] at hs
      rw [exec_crcCheck_of_ne hw] at ht
      cases hs; cases ht; simp [hc, hout]
  | tcDecode w =>
    cases hw : tcParseOk w with
    | true =>
      rw [exec_tcDecode_of_letters _ hw] at hs ht
      cases hs; cases ht; simp [hc]
    | false =>
      rw [exec_tcDecode_of_other _ hw] at hs ht
      cases hs; cases ht; simp [hc]

/-- `step` depends on nothing but `crc_r` and `cmd`. -/
theorem step_presentNext_congr_crcR {s t s' t' : State} (cmd : CmdWord) (hc : s.crcR = t.crcR)
    (hs : step (presentNext s cmd) = .next s') (ht : step (presentNext t cmd) = .next t') :
    s'.crcR = t'.crcR ∧ s'.rsp = t'.rsp := by
  rw [step_of_command (presentNext_presented _ cmd), presentNext_advance] at hs ht
  cases hd : decode cmd with
  | legal i =>
    rw [hd] at hs ht
    exact exec_congr_crcR i hc hs ht
  | illegal why =>
    rw [hd] at hs ht
    cases hs; cases ht; exact ⟨hc, rfl⟩

/-- Settles O3: each kind of edge by what the ports ask for, the answer of every word by the shape of the commands, and the
dependence on `crc_r` and `cmd` command by command. -/
theorem stepFunctionOfPorts : Obligations.StepFunctionOfPorts := by
  refine ⟨fun s c rest h hrst => ⟨fun hv => ?_, fun hv => ?_⟩, step_presentNext_answers,
    fun s t s' t' cmd => step_presentNext_congr_crcR cmd, fun s t c rest h hstep => ?_⟩
  · have hp : s.currentCycle.presented = .command c.cmd := by
      rw [currentCycle_of_head h, Cycle.presented_eq_command_iff]
      exact ⟨hrst, hv, rfl⟩
    rw [step_of_command hp, advance_of_head h]
    rfl
  · have hp : s.currentCycle.presented = .idle := by
      rw [currentCycle_of_head h, Cycle.presented_eq_idle_iff]
      exact ⟨hrst, hv⟩
    rw [step_of_idle hp, advance_of_head h]
    rfl
  · rw [← currentCycle_of_head h]
    exact step_rspValid hstep

end Sys2Proof.Machine
end

section
/-! The decoder as the inverse of the encoder, and the opcode map of 30_encoding.md R34 as a test of the two fields of a word:
what is legal, what is illegal, and which row a word selects. -/

namespace Sys2Proof

/-! ### The fields of a word -/

@[simp] theorem makeWord_inj {op op' : Byte} {arg arg' : Word} :
    makeWord op arg = makeWord op' arg' ↔ op = op' ∧ arg = arg' := by
  refine ⟨fun h => ⟨?_, ?_⟩, fun ⟨ho, ha⟩ => ho ▸ ha ▸ rfl⟩
  · simpa using congrArg opField h
  · simpa using congrArg argField h

theorem makeWord_and (op op' : Byte) (arg arg' : Word) :
    makeWord op arg &&& makeWord op' arg' = makeWord (op &&& op') (arg &&& arg') :=
  BitVec.and_append

/-- The fields as the rules write them, `cmd[39:32]` and `cmd[31:0]` (30_encoding.md R32). -/
theorem extractLsb_eq_opField (cmd : CmdWord) : cmd.extractLsb 39 32 = opField cmd := rfl

theorem extractLsb_eq_argField (cmd : CmdWord) : cmd.extractLsb 31 0 = argField cmd := rfl

/-- Bits 31:8 of a word are those of its operand field. -/
theorem extractLsb_eq_argField_highBits (cmd : CmdWord) : cmd.extractLsb 31 8 = (argField cmd).extractLsb' 8 24 := by
  apply BitVec.eq_of_getLsbD_eq
  intro i hi
  have h24 : i < 24 := hi
  simp [argField, h24]

/-! ### Decoding and encoding -/

/-- Decoding the word of a command gives the command back. -/
@[simp] theorem decode_encode (i : Instr) : decode (encode i) = .legal i := by
  cases i <;> simp [encode, decode]

/-- A legal word is the word of its command. -/
theorem encode_of_decode_eq_legal {cmd : CmdWord} {i : Instr} (h : decode cmd = .legal i) : encode i = cmd := by
  rw [← makeWord_fields cmd] at h ⊢
  generalize opField cmd = op at h ⊢
  generalize argField cmd = arg at h ⊢
  simp only [decode, opField_makeWord, argField_makeWord] at h
  split_ifs at h with hinit harg hbyte hhigh hword hread harg hcheck htc <;> cases h
  · rw [hinit, harg, encode]
  · rw [hbyte, encode, setWidth_of_highBits hhigh]
  · rw [hword, encode]
  · rw [hread, harg, encode]
  · rw [hcheck, encode]
  · rw [htc, encode]

/-- The decoder is the inverse of the encoder. -/
theorem decode_eq_legal_iff {cmd : CmdWord} {i : Instr} : decode cmd = .legal i ↔ cmd = encode i :=
  ⟨fun h => (encode_of_decode_eq_legal h).symm, fun h => h ▸ decode_encode i⟩

/-- A word is illegal exactly when it is legal for no command. -/
theorem decode_illegal_iff_not_legal (cmd : CmdWord) :
    (∃ why, decode cmd = .illegal why) ↔ ¬ ∃ i, decode cmd = .legal i := by
  cases decode cmd <;> simp

/-! ### Rows of the opcode map -/

theorem opRow_eq_of_mnemonic : ∀ r ∈ opcodeTable, ∀ q ∈ opcodeTable, r.mnemonic = q.mnemonic → r = q := by decide

theorem opRow_eq_of_op : ∀ r ∈ opcodeTable, ∀ q ∈ opcodeTable, r.op = q.op → r = q := by decide

/-- A word has a row's opcode and zeros where the row's format must have them (30_encoding.md R33). -/
def OpRow.fits (r : OpRow) (cmd : CmdWord) : Prop := opField cmd = r.op ∧ r.format.argOk (argField cmd) = true

/-- A well-formed word is one that fits some row. -/
theorem wellFormed_iff_fits (cmd : CmdWord) : wellFormed cmd = true ↔ ∃ r ∈ opcodeTable, r.fits cmd := by
  simp [wellFormed, OpRow.fits, opField, argField]

/-- The operand bits that a row's mask compares: the must-be-zero bits of its format. -/
def Format.argMask : Format → Word
  | .Z => 0xFFFFFFFF
  | .B => 0xFFFFFF00
  | .W => 0x00000000

theorem Format.argOk_iff_and_argMask (f : Format) (arg : Word) : f.argOk arg = true ↔ arg &&& f.argMask = 0 := by
  cases f with
  | Z =>
    have hones : arg &&& Format.Z.argMask = arg := BitVec.and_allOnes
    simp [Format.argOk, hones]
  | B =>
    have hsplit : arg.extractLsb' 8 24 ++ arg.extractLsb' 0 8 = arg := BitVec.extractLsb'_append_extractLsb'
    have hmask : Format.B.argMask = BitVec.allOnes 24 ++ (0 : Byte) := rfl
    have hzero : (0 : Word) = (0 : BitVec 24) ++ (0 : Byte) := rfl
    calc Format.B.argOk arg = true
        ↔ arg.extractLsb' 8 24 = 0 := beq_iff_eq
      _ ↔ arg.extractLsb' 8 24 ++ (0 : Byte) = 0 := by rw [hzero, BitVec.append_left_inj]
      _ ↔ (arg.extractLsb' 8 24 ++ arg.extractLsb' 0 8) &&& Format.B.argMask = 0 := by
        rw [hmask, BitVec.and_append, BitVec.and_allOnes, BitVec.ofNat_eq_ofNat, BitVec.and_zero]
      _ ↔ arg &&& Format.B.argMask = 0 := by rw [hsplit]
  | W => simp [Format.argOk, Format.argMask]

/-- Every row's `match` and `mask` are made of its opcode and its format. -/
theorem matchBits_maskBits_of_mem : ∀ r ∈ opcodeTable,
    r.matchBits = makeWord r.op 0 ∧ r.maskBits = makeWord 0xFF r.format.argMask := by
  decide

/-- `(cmd & mask) == match` tests the two fields. -/
theorem and_maskBits_eq_matchBits_iff {r : OpRow} (hr : r ∈ opcodeTable) (cmd : CmdWord) :
    cmd &&& r.maskBits = r.matchBits ↔ r.fits cmd := by
  obtain ⟨hmatch, hmask⟩ := matchBits_maskBits_of_mem r hr
  have hones : opField cmd &&& 0xFF = opField cmd := BitVec.and_allOnes
  calc cmd &&& r.maskBits = r.matchBits
      ↔ makeWord (opField cmd) (argField cmd) &&& makeWord 0xFF r.format.argMask = makeWord r.op 0 := by
        rw [makeWord_fields, hmatch, hmask]
    _ ↔ r.fits cmd := by
        rw [makeWord_and, makeWord_inj, hones, ← Format.argOk_iff_and_argMask, OpRow.fits]

/-- The facts of every command's word, gathered from the family of Laws/PerInstr. -/
theorem encodedWord_statement (i : Instr) : Laws.EncodedWord.Statement i := by
  cases i with
  | crcInit => exact Laws.EncodedWord.crcInit
  | crcByte b => exact Laws.EncodedWord.crcByte b
  | crcWord w => exact Laws.EncodedWord.crcWord w
  | crcRead => exact Laws.EncodedWord.crcRead
  | crcCheck w => exact Laws.EncodedWord.crcCheck w
  | tcDecode w => exact Laws.EncodedWord.tcDecode w

/-- The word of a command fits the row with its mnemonic. -/
theorem exists_row_fits_encode (i : Instr) : ∃ r ∈ opcodeTable, r.mnemonic = i.mnemonic ∧ r.fits (encode i) := by
  obtain ⟨hwf, r, hr, hmnemonic, hop⟩ := encodedWord_statement i
  obtain ⟨q, hq, hfits⟩ := (wellFormed_iff_fits _).mp hwf
  obtain rfl : q = r := opRow_eq_of_op q hq r hr (hfits.1.symm.trans hop)
  exact ⟨q, hq, hmnemonic, hfits⟩

/-- A word that fits a row is the word of a command with the row's mnemonic. -/
theorem exists_eq_encode_of_fits {r : OpRow} (hr : r ∈ opcodeTable) {cmd : CmdWord} (hfits : r.fits cmd) :
    ∃ i, cmd = encode i ∧ i.mnemonic = r.mnemonic := by
  obtain ⟨hop, harg⟩ := hfits
  rw [← makeWord_fields cmd, hop]
  generalize argField cmd = arg at harg
  simp only [opcodeTable, List.mem_cons, List.not_mem_nil, or_false] at hr
  obtain rfl | rfl | rfl | rfl | rfl | rfl := hr
  · exact ⟨.crcInit, by rw [show arg = 0 from beq_iff_eq.mp harg]; rfl, rfl⟩
  · exact ⟨.crcByte (arg.extractLsb' 0 8), by rw [encode, setWidth_of_highBits (beq_iff_eq.mp harg)], rfl⟩
  · exact ⟨.crcWord arg, rfl, rfl⟩
  · exact ⟨.crcRead, by rw [show arg = 0 from beq_iff_eq.mp harg]; rfl, rfl⟩
  · exact ⟨.crcCheck arg, rfl, rfl⟩
  · exact ⟨.tcDecode arg, rfl, rfl⟩

/-- A word fits a row exactly when it decodes to a command with the row's mnemonic. -/
theorem fits_iff_decode {r : OpRow} (hr : r ∈ opcodeTable) (cmd : CmdWord) :
    r.fits cmd ↔ ∃ i, decode cmd = .legal i ∧ i.mnemonic = r.mnemonic := by
  simp only [decode_eq_legal_iff]
  refine ⟨exists_eq_encode_of_fits hr, ?_⟩
  rintro ⟨i, rfl, hi⟩
  obtain ⟨q, hq, hmnemonic, hfits⟩ := exists_row_fits_encode i
  obtain rfl : q = r := opRow_eq_of_mnemonic q hq r hr (hmnemonic.trans hi)
  exact hfits

/-! ### Legal and illegal words -/

/-- The legal words are the well-formed ones. -/
theorem wellFormed_iff_legal (cmd : CmdWord) : wellFormed cmd = true ↔ ∃ i, decode cmd = .legal i := by
  rw [wellFormed_iff_fits]
  constructor
  · rintro ⟨r, hr, hfits⟩
    obtain ⟨i, hi, -⟩ := (fits_iff_decode hr cmd).mp hfits
    exact ⟨i, hi⟩
  · rintro ⟨i, hi⟩
    obtain ⟨r, hr, -, hfits⟩ := exists_row_fits_encode i
    exact ⟨r, hr, decode_eq_legal_iff.mp hi ▸ hfits⟩

/-- The conditions of 30_encoding.md R36 under which a word is legal, on its fields. -/
theorem legal_iff_fields (cmd : CmdWord) : (∃ i, decode cmd = .legal i) ↔
    ((opField cmd = 0x01 ∨ opField cmd = 0x04) ∧ argField cmd = 0) ∨
    (opField cmd = 0x02 ∧ (argField cmd).extractLsb' 8 24 = 0) ∨
    opField cmd = 0x03 ∨ opField cmd = 0x05 ∨ opField cmd = 0x10 := by
  rw [← wellFormed_iff_legal, wellFormed_iff_fits]
  simp only [opcodeTable, List.mem_cons, List.not_mem_nil, or_false, exists_eq_or_imp, exists_eq_left, OpRow.fits,
    Format.argOk, beq_iff_eq, and_true]
  tauto

/-- The illegal words on their fields (30_encoding.md R37): an undefined opcode, or a must-be-zero bit that is set. -/
theorem illegal_iff_fields (cmd : CmdWord) : (∃ why, decode cmd = .illegal why) ↔
    opField cmd ∉ [0x01, 0x02, 0x03, 0x04, 0x05, 0x10] ∨
    ((opField cmd = 0x01 ∨ opField cmd = 0x04) ∧ argField cmd ≠ 0) ∨
    (opField cmd = 0x02 ∧ (argField cmd).extractLsb' 8 24 ≠ 0) := by
  rw [decode_illegal_iff_not_legal, legal_iff_fields]
  by_cases hop : opField cmd ∈ [0x01, 0x02, 0x03, 0x04, 0x05, 0x10]
  · have hops := hop
    simp only [List.mem_cons, List.not_mem_nil, or_false] at hops
    obtain h | h | h | h | h | h := hops <;> simp [h]
  · simp only [hop, not_false_eq_true, true_or, iff_true]
    simp only [List.mem_cons, List.not_mem_nil, or_false] at hop
    tauto

/-- No word fits two rows: their opcodes differ. -/
theorem opRow_eq_of_fits {r q : OpRow} (hr : r ∈ opcodeTable) (hq : q ∈ opcodeTable) {cmd : CmdWord} (h : r.fits cmd)
    (h' : q.fits cmd) : r = q :=
  opRow_eq_of_op r hr q hq (h.1.symm.trans h'.1)

/-! ### Presenting a word -/

namespace Machine

/-- A presented word has its command executed at the state itself; an illegal one is answered `{0x03, 0}` (30_encoding.md R36,
R37). -/
theorem step_presentNext (s : State) (cmd : CmdWord) :
    step (presentNext s cmd) = match decode cmd with
      | .legal i => exec i s
      | .illegal _ => .next (answerIllegal s) :=
  step_of_command (presentNext_presented s cmd)

theorem step_presentNext_of_legal (s : State) {cmd : CmdWord} {i : Instr} (hd : decode cmd = .legal i) :
    step (presentNext s cmd) = exec i s :=
  step_of_legal (presentNext_presented s cmd) hd

theorem step_presentNext_of_illegal (s : State) {cmd : CmdWord} {why : Rejection} (hd : decode cmd = .illegal why) :
    step (presentNext s cmd) = .next (answerIllegal s) :=
  step_of_illegal (presentNext_presented s cmd) hd

end Machine

open Machine

/-! ### The obligations -/

/-- Settles O4: each legal line is the word of its command, decoded; a word under none of these conditions is illegal by
`legal_iff_fields`. -/
theorem decodingTable : Obligations.DecodingTable := by
  refine ⟨fun cmd => (makeWord_fields cmd).symm, fun op arg => ⟨?_, ?_, ?_, ?_, ?_, ?_, ?_, ?_⟩⟩
  · rintro rfl rfl
    exact decode_encode .crcInit
  · intro hop harg
    have hword : makeWord op arg = encode (.crcByte (arg.extractLsb' 0 8)) := by
      rw [encode, setWidth_of_highBits harg, hop]
    exact decode_eq_legal_iff.mpr hword
  · rintro rfl
    exact decode_encode (.crcWord arg)
  · rintro rfl rfl
    exact decode_encode .crcRead
  · rintro rfl
    exact decode_encode (.crcCheck arg)
  · rintro rfl
    exact decode_encode (.tcDecode arg)
  · intro hinit hbyte hword hread hcheck htc
    rw [decode_illegal_iff_not_legal, legal_iff_fields, opField_makeWord, argField_makeWord]
    rintro (⟨rfl | rfl, harg⟩ | hb | h | h | h)
    · exact hinit ⟨rfl, harg⟩
    · exact hread ⟨rfl, harg⟩
    · exact hbyte hb
    · exact hword h
    · exact hcheck h
    · exact htc h
  · exact fun s => step_presentNext s (makeWord op arg)

/-- Settles O5: `match` and `mask` test whether a word fits the row, and a word that fits is the word of a command of that
row. -/
theorem opcodeMapSelects : Obligations.OpcodeMapSelects := by
  refine ⟨rfl, fun r hr cmd => ?_, fun r hr q hq cmd h h' => ?_, fun cmd h => ?_⟩
  · rw [and_maskBits_eq_matchBits_iff hr, fits_iff_decode hr]
  · rw [and_maskBits_eq_matchBits_iff ‹_›] at h h'
    exact opRow_eq_of_fits hr hq h h'
  · rw [decode_illegal_iff_not_legal, ← wellFormed_iff_legal, wellFormed_iff_fits]
    rintro ⟨r, hr, hop, -⟩
    exact h r hr hop

/-- Settles O6: the conditions on the fields by `illegal_iff_fields`; the two named words by evaluation; the answer of an
illegal word and the next state of every word from the step of a presented word. -/
theorem illegalWordsExactly : Obligations.IllegalWordsExactly := by
  refine ⟨fun cmd => ?_, ⟨.undefinedOpcode, by decide⟩, ⟨.undefinedOpcode, by decide⟩,
    fun s cmd why hd => step_presentNext_of_illegal s hd, fun s cmd => ?_⟩
  · rw [extractLsb_eq_argField_highBits]
    exact illegal_iff_fields cmd
  · obtain ⟨t, -, hstep, -⟩ := step_presentNext_answers s cmd
    exact ⟨t, hstep⟩

end Sys2Proof
end

section
/-! The answers of 30_encoding.md R40 to R42: the layout of the response word, the code and the data of every outcome, and the
failure, if any, that a presented word meets. -/

namespace Sys2Proof.Machine

/-! ### What each command answers, as an equation -/

theorem exec_crcInit (s : State) : exec .crcInit s = .next (respond (startMessage s) codeOk 0) := rfl

theorem exec_crcByte (b : Byte) (s : State) :
    exec (.crcByte b) s = .next (respond (feedByte s b) codeOk (feedByte s b).crcOut) := rfl

theorem exec_crcWord (w : Word) (s : State) :
    exec (.crcWord w) s = .next (respond (feedBytes s (bytes4 w)) codeOk (feedBytes s (bytes4 w)).crcOut) := rfl

theorem exec_crcRead (s : State) : exec .crcRead s = .next (respond s codeOk s.crcOut) := rfl

/-! ### Letters and their flag bit -/

/-- A type code parses when its four bytes are letters (41_typecode.md R73). -/
theorem tcParseOk_iff (w : Word) : tcParseOk w = true ↔ ∀ b ∈ bytes4 w, isAlpha b = true := by
  simp [tcParseOk, bytes4, and_assoc]

theorem tcParseOk_eq_false_iff (w : Word) : tcParseOk w = false ↔ ∃ b ∈ bytes4 w, isAlpha b = false := by
  rw [← Bool.not_eq_true, tcParseOk_iff]
  simp

/-- The flag bit of a byte is its bit 5. -/
theorem flagBit_eq_getLsbD (b : Byte) : flagBit b = b.getLsbD 5 := by
  have hmask : flagMask = BitVec.twoPow 8 5 := rfl
  rw [flagBit, hmask, BitVec.and_twoPow]
  cases b.getLsbD 5 <;> rfl

/-- Bit 5 of a byte, as a remainder. -/
theorem flagBit_eq_decide (b : Byte) : flagBit b = decide (b.toNat / 32 % 2 = 1) := by
  rw [flagBit_eq_getLsbD, ← BitVec.testBit_toNat, Nat.testBit_eq_decide_div_mod_eq]

theorem isUpper_iff (b : Byte) : isUpper b = true ↔ 0x41 ≤ b.toNat ∧ b.toNat ≤ 0x5A := by
  simp [isUpper, BitVec.le_def]

theorem isLower_iff (b : Byte) : isLower b = true ↔ 0x61 ≤ b.toNat ∧ b.toNat ≤ 0x7A := by
  simp [isLower, BitVec.le_def]

theorem isAlpha_iff (b : Byte) : isAlpha b = true ↔ isUpper b = true ∨ isLower b = true := by
  simp [isAlpha]

/-- In a letter the flag bit is clear for uppercase and set for lowercase. -/
theorem isUpper_eq_not_flagBit {b : Byte} (h : isAlpha b = true) : isUpper b = !flagBit b := by
  rw [isAlpha_iff, isUpper_iff, isLower_iff] at h
  rw [flagBit_eq_decide, Bool.eq_iff_iff, isUpper_iff, Bool.not_eq_true', decide_eq_false_iff_not]
  omega

theorem isLower_eq_flagBit {b : Byte} (h : isAlpha b = true) : isLower b = flagBit b := by
  rw [isAlpha_iff, isUpper_iff, isLower_iff] at h
  rw [flagBit_eq_decide, Bool.eq_iff_iff, isLower_iff, decide_eq_true_iff]
  omega

/-- The flag bits of four letters are their five predicates (41_typecode.md R74 to R78). -/
theorem tcFlagData_of_letters {w : Word} (h : tcParseOk w = true) :
    tcFlagData w = (0 : BitVec 27) ++ BitVec.ofBool (isValid w) ++ BitVec.ofBool (safeToCopy w) ++
      BitVec.ofBool (reserved w) ++ BitVec.ofBool (isPublic w) ++ BitVec.ofBool (critical w) := by
  have hletters := (tcParseOk_iff w).mp h
  have h0 : critical w = !flagBit (byte0 w) := isUpper_eq_not_flagBit (hletters _ (by simp [bytes4]))
  have h1 : isPublic w = !flagBit (byte1 w) := isUpper_eq_not_flagBit (hletters _ (by simp [bytes4]))
  have h2 : reserved w = !flagBit (byte2 w) := isUpper_eq_not_flagBit (hletters _ (by simp [bytes4]))
  have h3 : safeToCopy w = flagBit (byte3 w) := isLower_eq_flagBit (hletters _ (by simp [bytes4]))
  have hvalid : isValid w = reserved w := by simp [isValid, reserved, h]
  rw [hvalid, h0, h1, h2, h3, tcFlagData]

/-! ### Which words fail -/

/-- The causes of failure (60_exceptions.md R92): a presented word fails with a kind at a state. -/
inductive Fails (s : State) (cmd : CmdWord) : FailureKind → Prop where
  | typeCode {w : Word} (hd : decode cmd = .legal (.tcDecode w)) (hw : tcParseOk w = false) : Fails s cmd .invalidTypeCode
  | checksum {w : Word} (hd : decode cmd = .legal (.crcCheck w)) (hw : s.crcOut ≠ w) : Fails s cmd .invalidChecksum
  | illegal {why : Rejection} (hd : decode cmd = .illegal why) : Fails s cmd .illegalCommand

/-- The data with which each kind is reported. -/
def FailureKind.data (s : State) : FailureKind → Word
  | .invalidTypeCode => 0
  | .invalidChecksum => s.crcOut
  | .illegalCommand => 0

theorem FailureKind.code_injective : Function.Injective FailureKind.code := by
  intro k k'
  cases k <;> cases k' <;> simp

theorem FailureKind.code_ne_codeOk (k : FailureKind) : k.code ≠ codeOk := by
  cases k <;> decide

/-- A word that fails is answered by its failure and writes nothing (60_exceptions.md R90, R91). -/
theorem step_of_fails {s : State} {cmd : CmdWord} {k : FailureKind} (h : Fails s cmd k) :
    step (presentNext s cmd) = .next (raise s k (k.data s)) := by
  cases h with
  | typeCode hd hw => exact (step_presentNext_of_legal s hd).trans (exec_tcDecode_of_other s hw)
  | checksum hd hw => exact (step_presentNext_of_legal s hd).trans (exec_crcCheck_of_ne hw)
  | illegal hd => exact step_presentNext_of_illegal s hd

/-- A word with no cause of failure is answered OK. -/
theorem step_of_not_fails {s : State} {cmd : CmdWord} (h : ∀ k, ¬ Fails s cmd k) :
    ∃ n data, step (presentNext s cmd) = .next (respond n codeOk data) := by
  cases hd : decode cmd with
  | illegal why => exact absurd (.illegal hd) (h _)
  | legal i =>
    rw [step_presentNext_of_legal s hd]
    cases i with
    | crcInit => exact ⟨_, _, exec_crcInit s⟩
    | crcByte b => exact ⟨_, _, exec_crcByte b s⟩
    | crcWord w => exact ⟨_, _, exec_crcWord w s⟩
    | crcRead => exact ⟨_, _, exec_crcRead s⟩
    | crcCheck w =>
      have hw : s.crcOut = w := not_not.mp fun hne => h _ (.checksum hd hne)
      exact ⟨_, _, exec_crcCheck_of_eq hw⟩
    | tcDecode w =>
      have hw : tcParseOk w = true := Bool.of_not_eq_false fun hbad => h _ (.typeCode hd hbad)
      exact ⟨_, _, exec_tcDecode_of_letters s hw⟩

/-- The response to a presented word: the failure it meets, or OK where it meets none. -/
theorem response_cases {s t : State} {cmd : CmdWord} {r : Response} (hstep : step (presentNext s cmd) = .next t)
    (hr : t.rsp = some r) :
    (∃ k, Fails s cmd k ∧ r = ⟨k.code, k.data s⟩) ∨ ((∀ k, ¬ Fails s cmd k) ∧ r.code = codeOk) := by
  by_cases h : ∃ k, Fails s cmd k
  · obtain ⟨k, hk⟩ := h
    rw [step_of_fails hk] at hstep
    cases hstep
    exact .inl ⟨k, hk, (Option.some.inj hr).symm⟩
  · have hnone : ∀ k, ¬ Fails s cmd k := not_exists.mp h
    obtain ⟨n, data, hok⟩ := step_of_not_fails hnone
    rw [hok] at hstep
    cases hstep
    exact .inr ⟨hnone, congrArg Response.code (Option.some.inj hr).symm⟩

/-- No word fails with two kinds: it has one answer. -/
theorem Fails.unique {s : State} {cmd : CmdWord} {k k' : FailureKind} (h : Fails s cmd k) (h' : Fails s cmd k') :
    k = k' := by
  have hraise : raise s k (k.data s) = raise s k' (k'.data s) :=
    Host.Outcome.next.inj ((step_of_fails h).symm.trans (step_of_fails h'))
  exact FailureKind.code_injective (congrArg Response.code (Option.some.inj (congrArg State.rsp hraise)))

/-- A failure code is given exactly for its cause. -/
theorem code_eq_iff_fails {s t : State} {cmd : CmdWord} {r : Response} (hstep : step (presentNext s cmd) = .next t)
    (hr : t.rsp = some r) (k : FailureKind) : r.code = k.code ↔ Fails s cmd k := by
  obtain ⟨k', hk', rfl⟩ | ⟨hnone, hok⟩ := response_cases hstep hr
  · refine ⟨fun h => FailureKind.code_injective h ▸ hk', fun h => ?_⟩
    rw [hk'.unique h]
  · exact iff_of_false (hok ▸ k.code_ne_codeOk.symm) (hnone k)

/-- A failure code comes with the data of its kind. -/
theorem data_of_code_eq {s t : State} {cmd : CmdWord} {r : Response} (hstep : step (presentNext s cmd) = .next t)
    (hr : t.rsp = some r) {k : FailureKind} (h : r.code = k.code) : r.data = k.data s := by
  obtain ⟨k', -, rfl⟩ | ⟨-, hok⟩ := response_cases hstep hr
  · rw [FailureKind.code_injective h]
  · exact absurd (h.symm.trans hok) k.code_ne_codeOk

/-- The code of a response is one of the four of 30_encoding.md R41. -/
theorem code_cases {s t : State} {cmd : CmdWord} {r : Response} (hstep : step (presentNext s cmd) = .next t)
    (hr : t.rsp = some r) : r.code = 0x00 ∨ r.code = 0x01 ∨ r.code = 0x02 ∨ r.code = 0x03 := by
  obtain ⟨k, -, rfl⟩ | ⟨-, hok⟩ := response_cases hstep hr
  · cases k <;> simp
  · exact .inl hok

theorem fails_invalidTypeCode_iff (s : State) (cmd : CmdWord) : Fails s cmd .invalidTypeCode ↔
    ∃ w, decode cmd = .legal (.tcDecode w) ∧ ∃ b ∈ bytes4 w, isAlpha b = false := by
  simp only [← tcParseOk_eq_false_iff]
  exact ⟨fun | .typeCode hd hw => ⟨_, hd, hw⟩, fun ⟨_, hd, hw⟩ => .typeCode hd hw⟩

theorem fails_invalidChecksum_iff (s : State) (cmd : CmdWord) : Fails s cmd .invalidChecksum ↔
    ∃ w, decode cmd = .legal (.crcCheck w) ∧ s.crcOut ≠ w :=
  ⟨fun | .checksum hd hw => ⟨_, hd, hw⟩, fun ⟨_, hd, hw⟩ => .checksum hd hw⟩

theorem fails_illegalCommand_iff (s : State) (cmd : CmdWord) : Fails s cmd .illegalCommand ↔
    ∃ why, decode cmd = .illegal why :=
  ⟨fun | .illegal hd => ⟨_, hd⟩, fun ⟨_, hd⟩ => .illegal hd⟩

/-- An edge that asks for a command is one at which the host presented its word. -/
theorem eq_presentNext_of_command {s : State} {cmd : CmdWord} (hp : s.currentCycle.presented = .command cmd) :
    s = presentNext s.advance cmd ∧ ∃ c ∈ s.inputs.head?, c.rst = false ∧ c.cmdValid = true := by
  cases hin : s.inputs with
  | nil => simp [presented_of_no_input hin] at hp
  | cons c rest =>
    rw [currentCycle_of_head hin] at hp
    obtain ⟨hrst, hvalid, hcmd⟩ := (Cycle.presented_eq_command_iff c cmd).mp hp
    have hc : c = Cycle.command cmd := by
      cases c
      simp_all [Cycle.command]
    refine ⟨state_ext rfl rfl rfl ?_, c, rfl, hrst, hvalid⟩
    simp [hin, hc]

/-- An edge with a response is one at which a word was presented. -/
theorem exists_presented_of_rsp {s t : State} {r : Response} (hstep : step s = .next t) (hr : t.rsp = some r) :
    ∃ cmd, s.currentCycle.presented = .command cmd := by
  obtain ⟨-, rfl⟩ | ⟨-, rfl⟩ | ⟨cmd, -, hp, -⟩ | ⟨cmd, -, hp, -⟩ := step_cases hstep
  · simp at hr
  · simp at hr
  · exact ⟨cmd, hp⟩
  · exact ⟨cmd, hp⟩

/-! ### The obligations -/

/-- Settles O11: every word is answered, and a response word is made of its two fields as a command word is. -/
theorem responseWordLayout : Obligations.ResponseWordLayout := by
  refine ⟨fun s cmd => ?_, fun r => ?_, fun s code data => ⟨⟨code, data⟩, respond_rsp s code data, rfl⟩⟩
  · obtain ⟨t, r, hstep, hr, -⟩ := step_presentNext_answers s cmd
    exact ⟨t, r, hstep, hr⟩
  · have hword : r.word = makeWord r.code r.data := rfl
    rw [hword, extractLsb_eq_opField, extractLsb_eq_argField, wordBytes, opField_makeWord, argField_makeWord]
    exact ⟨rfl, rfl, rfl⟩

/-- Settles O12: outcome by outcome, by the equation of the command; `CRC_CHECK` and `TC_DECODE` by their two cases. -/
theorem responseByOutcome : Obligations.ResponseByOutcome := by
  intro s cmd
  cases hd : decode cmd with
  | illegal why => exact ⟨_, _, step_presentNext_of_illegal s hd, answerIllegal_rsp s, rfl⟩
  | legal i =>
    rw [step_presentNext_of_legal s hd]
    cases i with
    | crcInit => exact ⟨_, _, exec_crcInit s, respond_rsp .., rfl, by simp [initReg], rfl⟩
    | crcByte b => exact ⟨_, _, exec_crcByte b s, respond_rsp .., rfl⟩
    | crcWord w => exact ⟨_, _, exec_crcWord w s, respond_rsp .., rfl⟩
    | crcRead => exact ⟨_, _, exec_crcRead s, respond_rsp .., rfl, rfl⟩
    | crcCheck w =>
      by_cases hw : s.crcOut = w
      · exact ⟨_, _, exec_crcCheck_of_eq hw, respond_rsp .., rfl, fun _ => rfl, fun hne => absurd hw hne⟩
      · exact ⟨_, _, exec_crcCheck_of_ne hw, raise_rsp .., rfl, fun heq => absurd heq hw, fun _ => rfl⟩
    | tcDecode w =>
      cases hw : tcParseOk w with
      | true =>
        refine ⟨_, _, exec_tcDecode_of_letters s hw, respond_rsp .., fun _ => ⟨rfl, tcFlagData_of_letters hw⟩, ?_⟩
        simp [← tcParseOk_eq_false_iff, hw]
      | false =>
        refine ⟨_, _, exec_tcDecode_of_other s hw, raise_rsp .., ?_, fun _ => rfl⟩
        simp [← tcParseOk_iff, hw]

/-- Settles O45: the response to a word is the failure it meets, and the three causes are those of R92; a response after any
edge is the response to the word presented at it. -/
theorem failureKindsExactly : Obligations.FailureKindsExactly := by
  refine ⟨fun s cmd => ?_, fun s t r hstep hr => ?_⟩
  · obtain ⟨t, r, hstep, hr, -⟩ := step_presentNext_answers s cmd
    have hcode := code_eq_iff_fails hstep hr
    refine ⟨t, r, hstep, hr, code_cases hstep hr, ?_, ?_, ?_, ?_, ?_, ?_⟩
    · exact (hcode .invalidTypeCode).trans (fails_invalidTypeCode_iff s cmd)
    · exact data_of_code_eq hstep hr (k := .invalidTypeCode)
    · exact (hcode .invalidChecksum).trans (fails_invalidChecksum_iff s cmd)
    · exact data_of_code_eq hstep hr (k := .invalidChecksum)
    · exact (hcode .illegalCommand).trans (fails_illegalCommand_iff s cmd)
    · exact data_of_code_eq hstep hr (k := .illegalCommand)
  · obtain ⟨cmd, hp⟩ := exists_presented_of_rsp hstep hr
    obtain ⟨hs, hport⟩ := eq_presentNext_of_command hp
    refine ⟨?_, hport⟩
    rw [hs] at hstep
    obtain h | h | h | h := code_cases hstep hr <;> rw [h] <;> decide

end Sys2Proof.Machine
end

section
/-! The checksum functions of 40_crc.md R52 and R53: the parameters, the byte update step by step, the message functions, and
that no fold loses a register value or a byte. -/

namespace Sys2Proof.Machine

/-! ### The message functions -/

theorem crcReg_nil : crcReg [] = 0xFFFFFFFF := rfl

theorem crcReg_append (s t : List Byte) : crcReg (s ++ t) = crcFrom (crcReg s) t := crcFrom_append ..

/-- One more byte is one more update. -/
theorem crcReg_concat (s : List Byte) (b : Byte) : crcReg (s ++ [b]) = crcUpd8 (crcReg s) b := crcReg_append ..

theorem crc32_eq_xor (s : List Byte) : crc32 s = crcReg s ^^^ 0xFFFFFFFF := rfl

/-- The final exclusive-or complements all 32 bits. -/
theorem crc32_eq_not (s : List Byte) : crc32 s = ~~~crcReg s := BitVec.xor_allOnes

/-- The checksum so far of a register that holds `CRCREG(m)` is `CRC32(m)` (10_state.md R12). -/
theorem crcOut_of_crcReg {s : State} {m : List Byte} (h : s.crcR = crcReg m) : s.crcOut = crc32 m :=
  congrArg (· ^^^ xorOut) h

/-! ### Nothing is lost: 40_crc.md R57 (b) -/

/-- Bit 31 of a step is the bit shifted out, since `POLY_R` has it set. -/
theorem crcStep1_bit31 (c : Word) : (crcStep1 c).getLsbD 31 = c.getLsbD 0 := by
  have hout : c.getLsbD 32 = false := BitVec.getLsbD_of_ge c 32 le_rfl
  have hpoly : polyR.getLsbD 31 = true := by decide
  rw [crcStep1_bit, hout, hpoly, Bool.false_xor, Bool.and_true]

/-- A step can be undone: its bit 31 says whether `POLY_R` was added, and the other bits were only shifted. -/
theorem crcStep1_injective : Function.Injective crcStep1 := by
  intro c d h
  have hbit0 : c.getLsbD 0 = d.getLsbD 0 := by rw [← crcStep1_bit31, h, crcStep1_bit31]
  apply BitVec.eq_of_getLsbD_eq
  intro i _
  cases i with
  | zero => exact hbit0
  | succ k =>
    have hk : (crcStep1 c).getLsbD k = (crcStep1 d).getLsbD k := by rw [h]
    rwa [crcStep1_bit, crcStep1_bit, hbit0, Bool.xor_left_inj] at hk

theorem crcSteps_injective (n : Nat) : Function.Injective (crcSteps n) := by
  induction n with
  | zero => exact Function.injective_id
  | succ n ih => exact ih.comp crcStep1_injective

/-- The update by a fixed byte loses no register value. -/
theorem crcUpd8_left_injective (b : Byte) : Function.Injective fun c => crcUpd8 c b := fun _ _ h =>
  (BitVec.xor_left_inj _).mp (crcSteps_injective 8 h)

theorem setWidth32_injective : Function.Injective fun b : Byte => b.setWidth 32 :=
  Function.LeftInverse.injective (g := BitVec.extractLsb' 0 8) setWidth_lowByte

/-- From a fixed register value different bytes leave different values. -/
theorem crcUpd8_right_injective (c : Word) : Function.Injective (crcUpd8 c) := fun _ _ h =>
  setWidth32_injective ((BitVec.xor_right_inj _).mp (crcSteps_injective 8 h))

/-- Feeding the same bytes keeps different register values different. -/
theorem crcFrom_injective (s : List Byte) : Function.Injective fun c => crcFrom c s := by
  induction s with
  | nil => exact Function.injective_id
  | cons b s ih => exact ih.comp (crcUpd8_left_injective b)

theorem crc32_ne_of_crcReg_ne {s t : List Byte} (h : crcReg s ≠ crcReg t) : crc32 s ≠ crc32 t :=
  fun heq => h ((BitVec.xor_left_inj _).mp heq)

/-- Messages that differ in one byte only leave different remainders. -/
theorem crcReg_ne_of_byte_ne (u v : List Byte) {a b : Byte} (h : a ≠ b) :
    crcReg (u ++ a :: v) ≠ crcReg (u ++ b :: v) := by
  rw [crcReg_append, crcReg_append, crcFrom_cons, crcFrom_cons]
  exact fun heq => h (crcUpd8_right_injective _ (crcFrom_injective v heq))

/-- Flipping a bit of a byte changes it. -/
theorem ne_xor_twoPow (b : Byte) {k : Nat} (hk : k < 8) : b ≠ b ^^^ BitVec.twoPow 8 k := by
  intro h
  have hbit := congrArg (BitVec.getLsbD · k) h
  simp [hk] at hbit

/-- Settles O13: the step and the byte update by their definitions, the worked example by evaluation. -/
theorem byteUpdateIsEightSteps : Obligations.ByteUpdateIsEightSteps := by
  refine ⟨fun _ => rfl, fun _ _ => rfl, ?_⟩
  decide

end Sys2Proof.Machine
end

section
/-! Runs of commands on the block: what the host presents behind a command does not touch it, a run is put together from runs,
and a run of feeding commands folds its bytes into the register (20_memory.md R21). -/

namespace Sys2Proof.Machine

/-! ### One command of a run -/

/-- A command does what it does whatever words wait behind it. -/
theorem exec_presentWords {i : Instr} {s t : State} (cmds : List CmdWord) (h : exec i s = .next t) :
    exec i (presentWords s cmds) = .next (presentWords t cmds) := by
  cases i with
  | crcInit => cases h; rfl
  | crcByte b => cases h; rfl
  | crcWord w => cases h; rfl
  | crcRead => cases h; rfl
  | crcCheck w =>
    by_cases hw : s.crcOut = w
    · rw [exec_crcCheck_of_eq hw] at h
      cases h
      exact exec_crcCheck_of_eq (s := presentWords s cmds) hw
    · rw [exec_crcCheck_of_ne hw] at h
      cases h
      exact exec_crcCheck_of_ne (s := presentWords s cmds) hw
  | tcDecode w =>
    cases hw : tcParseOk w with
    | true =>
      rw [exec_tcDecode_of_letters s hw] at h
      cases h
      exact exec_tcDecode_of_letters _ hw
    | false =>
      rw [exec_tcDecode_of_other s hw] at h
      cases h
      exact exec_tcDecode_of_other _ hw

/-! ### Putting runs together -/

/-- A run of commands is its first command and the run of the others. -/
theorem observe_presentCommands_cons {i : Instr} {s t : State} (is : List Instr) (n : Nat) (h : exec i s = .next t) :
    observe (n + 1) (presentCommands s (i :: is)) =
      (observe n (presentCommands t is)).map fun q => (t.rsp.toList ++ q.1, q.2) := by
  have hstep : step (presentCommands s (i :: is)) = .next (presentCommands t is) :=
    (step_presentNext_of_legal _ (decode_encode i)).trans (exec_presentWords (is.map encode) h)
  exact observe_succ_of_next hstep

/-- A run of commands goes on from the state its first part left. -/
theorem observe_presentCommands_append {is : List Instr} {s t : State} {rs : List Response} (js : List Instr) (n : Nat)
    (h : observe is.length (presentCommands s is) = some (rs, t)) :
    observe (is.length + n) (presentCommands s (is ++ js)) =
      (observe n (presentCommands t js)).map fun q => (rs ++ q.1, q.2) := by
  induction is generalizing s rs with
  | nil =>
    cases h
    simp [presentCommands]
  | cons i is ih =>
    obtain ⟨u, r, hexec, -⟩ := exec_answers i s
    rw [List.length_cons, observe_presentCommands_cons _ _ hexec] at h
    obtain ⟨⟨rs', t'⟩, hrun, hq⟩ := Option.map_eq_some_iff.mp h
    cases hq
    rw [List.length_cons, Nat.add_right_comm, List.cons_append, observe_presentCommands_cons _ _ hexec, ih hrun,
      Option.map_map]
    simp [Function.comp_def]

/-- A run with one more command. -/
theorem observe_presentCommands_concat {is : List Instr} {i : Instr} {s t u : State} {rs : List Response} {r : Response}
    (h : observe is.length (presentCommands s is) = some (rs, t)) (hexec : exec i t = .next u) (hr : u.rsp = some r) :
    observe (is.length + 1) (presentCommands s (is ++ [i])) = some (rs ++ [r], u) := by
  rw [observe_presentCommands_append [i] 1 h, observe_presentCommands_cons [] 0 hexec, hr]
  rfl

/-! ### Feeding commands -/

/-- What a feeding command does: it feeds its bytes and answers the checksum so far. -/
theorem exec_of_fedBytes {i : Instr} {bs : List Byte} (h : fedBytes i = some bs) (s : State) :
    exec i s = .next (respond (feedBytes s bs) codeOk (feedBytes s bs).crcOut) := by
  cases i with
  | crcByte b => cases h; rfl
  | crcWord w => cases h; rfl
  | _ => cases h

/-- Any mix of feeding commands folds the bytes they feed into the register, and extends the message by them. -/
theorem observe_of_allFeed {fs : List Instr} (h : allFeed fs = true) (s : State) : ∃ rs t,
    observe fs.length (presentCommands s fs) = some (rs, t) ∧ t.crcR = crcFrom s.crcR (fedMessage fs) ∧
      t.msg = s.msg.map (· ++ fedMessage fs) ∧ t.inputs = s.inputs := by
  induction fs generalizing s with
  | nil => exact ⟨[], s, rfl, rfl, by simp [fedMessage], rfl⟩
  | cons i fs ih =>
    obtain ⟨hi, hfs⟩ : (fedBytes i).isSome = true ∧ allFeed fs = true := by simpa [allFeed] using h
    obtain ⟨bs, hbs⟩ := Option.isSome_iff_exists.mp hi
    have hmessage : fedMessage (i :: fs) = bs ++ fedMessage fs := by simp [fedMessage, hbs]
    obtain ⟨rs, t, hrun, hcrc, hmsg, hinputs⟩ := ih hfs (respond (feedBytes s bs) codeOk (feedBytes s bs).crcOut)
    refine ⟨⟨codeOk, (feedBytes s bs).crcOut⟩ :: rs, t, ?_, ?_, ?_, ?_⟩
    · rw [List.length_cons, observe_presentCommands_cons _ _ (exec_of_fedBytes hbs s), hrun]
      rfl
    · rw [hcrc, hmessage, crcFrom_append, respond_crcR, feedBytes_crcR]
    · rw [hmsg, hmessage, respond_msg, feedBytes_msg, Option.map_map]
      simp [Function.comp_def]
    · rw [hinputs, respond_inputs, feedBytes_inputs]

/-- `CRC_INIT` and any mix of feeding commands, from any state, leave the remainder of the message they feed. -/
theorem observe_crcInit_of_allFeed {fs : List Instr} (h : allFeed fs = true) (s : State) : ∃ rs t,
    observe (fs.length + 1) (presentCommands s (.crcInit :: fs)) = some (rs, t) ∧ t.crcR = crcReg (fedMessage fs) ∧
      t.msg = some (fedMessage fs) ∧ t.inputs = s.inputs := by
  obtain ⟨rs, t, hrun, hcrc, hmsg, hinputs⟩ := observe_of_allFeed h (respond (startMessage s) codeOk 0)
  refine ⟨⟨codeOk, 0⟩ :: rs, t, ?_, hcrc, hmsg, hinputs⟩
  rw [observe_presentCommands_cons _ _ (exec_crcInit s), hrun]
  rfl

end Sys2Proof.Machine
end

section
/-! The checksum family on the block: the message functions of 40_crc.md R53 as it computes them, the single flipped bit of R58,
and the commands of R60 to R64, each with its whole next state. -/

namespace Sys2Proof.Machine

/-! ### Words that are no command -/

/-- An operand with a command that has none is illegal (30_encoding.md R37). -/
theorem step_of_nonzeroArg {op : Byte} (hop : op = 0x01 ∨ op = 0x04) {arg : Word} (harg : arg ≠ 0) (s : State) :
    step (presentNext s (makeWord op arg)) = .next (answerIllegal s) := by
  obtain ⟨why, hd⟩ := (illegal_iff_fields (makeWord op arg)).mpr (.inr (.inl (by simpa using ⟨hop, harg⟩)))
  exact step_presentNext_of_illegal s hd

/-- An operand of `CRC_BYTE` that is longer than a byte is illegal (30_encoding.md R37). -/
theorem step_of_nonzeroHighArg {arg : Word} (harg : arg.extractLsb' 8 24 ≠ 0) (s : State) :
    step (presentNext s (makeWord 0x02 arg)) = .next (answerIllegal s) := by
  obtain ⟨why, hd⟩ := (illegal_iff_fields (makeWord 0x02 arg)).mpr (.inr (.inr (by simpa using harg)))
  exact step_presentNext_of_illegal s hd

/-! ### Commands in sequence -/

@[simp] theorem respond_crcOut (s : State) (code : Byte) (data : Word) : (respond s code data).crcOut = s.crcOut := rfl

/-- The checksum of a message just started is 0. -/
theorem startMessage_crcOut (s : State) : (startMessage s).crcOut = 0 := by
  rw [State.crcOut, startMessage_crcR]
  decide

/-- `CRC_CHECK` repeated gives the same answer and does not end the message. -/
theorem exec_crcCheck_repeat {s t : State} {w : Word} (h : exec (.crcCheck w) s = .next t) :
    exec (.crcCheck w) t = .next t ∧ t.msg = s.msg := by
  by_cases hw : s.crcOut = w
  · rw [exec_crcCheck_of_eq hw] at h
    cases h
    exact ⟨exec_crcCheck_of_eq (s := respond s codeOk s.crcOut) hw, rfl⟩
  · rw [exec_crcCheck_of_ne hw] at h
    cases h
    exact ⟨exec_crcCheck_of_ne (s := raise s .invalidChecksum s.crcOut) hw, rfl⟩

/-- Four `CRC_BYTE` feed their bytes together; each answers the checksum so far. -/
theorem observe_four_crcByte (s : State) (b0 b1 b2 b3 : Byte) :
    observe 4 (presentCommands s [.crcByte b0, .crcByte b1, .crcByte b2, .crcByte b3]) =
      some ([⟨codeOk, (feedBytes s [b0]).crcOut⟩, ⟨codeOk, (feedBytes s [b0, b1]).crcOut⟩,
        ⟨codeOk, (feedBytes s [b0, b1, b2]).crcOut⟩, ⟨codeOk, (feedBytes s [b0, b1, b2, b3]).crcOut⟩],
        respond (feedBytes s [b0, b1, b2, b3]) codeOk (feedBytes s [b0, b1, b2, b3]).crcOut) := by
  rw [observe_presentCommands_cons _ 3 (exec_crcByte b0 s), observe_presentCommands_cons _ 2 (exec_crcByte b1 _),
    observe_presentCommands_cons _ 1 (exec_crcByte b2 _), observe_presentCommands_cons _ 0 (exec_crcByte b3 _)]
  rfl

/-- The response word of a command that answers the checksum so far, as the examples of the rules give it. -/
theorem step_answers_crcOut {s n : State} {cmd : CmdWord} {i : Instr} {code : Byte} {c : Word} {rsp : RspWord}
    (hd : decode cmd = .legal i) (hexec : exec i s = .next (respond n code n.crcOut)) (hc : n.crcR = c)
    (hrsp : code ++ (c ^^^ xorOut) = rsp) :
    ∃ t r, step (presentNext s cmd) = .next t ∧ t.crcR = c ∧ t.rsp = some r ∧ r.word = rsp := by
  refine ⟨_, _, (step_presentNext_of_legal s hd).trans hexec, hc, respond_rsp .., ?_⟩
  rw [← hrsp, ← hc]
  rfl

/-! ### The obligations -/

/-- Settles O14: the functions by their definitions, the three examples by evaluation, and the block by the equations of its
two commands. -/
theorem messageFunctions : Obligations.MessageFunctions := by
  refine ⟨crcReg_nil, by decide, crcReg_concat, crc32_eq_xor, by decide +kernel, by decide, by decide, fun s => ?_⟩
  have hinit := step_presentNext_of_legal s (decode_encode .crcInit)
  exact ⟨_, _, hinit.trans (exec_crcInit s),
    (step_presentNext_of_legal _ (decode_encode .crcRead)).trans (exec_crcRead _), rfl⟩

/-- Settles O20: the flipped byte leaves another register and no byte after it undoes that (`crcReg_ne_of_byte_ne`), so
`CRC_CHECK` sees two different checksums. -/
theorem singleBitIsDetected : Obligations.SingleBitIsDetected := by
  refine ⟨fun u v b k hk => ?_, by decide, by decide, by decide⟩
  have hreg := crcReg_ne_of_byte_ne u v (ne_xor_twoPow b hk)
  have hsum := crc32_ne_of_crcReg_ne hreg
  refine ⟨hsum, fun st fs hfeed hmessage => ?_⟩
  obtain ⟨rs, t, hrun, hcrc, -, -⟩ := observe_crcInit_of_allFeed hfeed st
  rw [hmessage] at hcrc
  have hout := crcOut_of_crcReg hcrc
  refine ⟨rs, _, _, observe_presentCommands_concat hrun (exec_crcCheck_of_ne (hout ▸ hsum.symm)) (raise_rsp ..), rfl,
    hcrc, ?_⟩
  rw [raise_crcR, hcrc]
  exact hreg.symm

/-- Settles O22, by the equation of `CRC_INIT`, whose next state does not depend on the register or the message. -/
theorem crcInitStartsMessage : Obligations.CrcInitStartsMessage := by
  refine ⟨exec_crcInit, rfl, decode_encode .crcInit, fun s arg harg => step_of_nonzeroArg (.inl rfl) harg s,
    fun s t h => ?_, fun s _ => ?_⟩
  · cases h
    rfl
  · exact ⟨_, _, (step_presentNext_of_legal s (decode_encode .crcInit)).trans (exec_crcInit s), rfl, rfl, rfl⟩

/-- Settles O23, by the equation of `CRC_BYTE`. -/
theorem crcByteFeedsOneByte : Obligations.CrcByteFeedsOneByte := by
  refine ⟨fun s b => exec_crcByte b s, fun b => ⟨rfl, decode_encode (.crcByte b)⟩,
    fun s arg harg => step_of_nonzeroHighArg harg s, by decide,
    ⟨State.reset, _, _, 0x00, exec_crcByte .., exec_crcByte .., by decide⟩, fun s hs => ?_⟩
  have hupdate : (feedByte s 0x61).crcR = 0x174841BC := by
    rw [feedByte_crcR, hs]
    decide
  exact step_answers_crcOut (decode_encode (.crcByte 0x61)) (exec_crcByte 0x61 s) hupdate (by decide)

/-- Settles O24: the next state field by field from what feeding four bytes does, and the four `CRC_BYTE` command by command. -/
theorem crcWordFeedsFourBytes : Obligations.CrcWordFeedsFourBytes := by
  refine ⟨fun s w => ?_, fun w => ⟨rfl, decode_encode (.crcWord w)⟩, fun s w => ?_,
    ⟨State.reset, _, _, 0, exec_crcWord .., exec_crcWord .., by decide +kernel⟩, fun s hs => ?_⟩
  · rw [exec_crcWord]
    exact congrArg Host.Outcome.next (state_ext rfl (feedBytes_msg s (bytes4 w)) rfl rfl)
  · exact ⟨_, _, _, _, _, observe_presentCommands_concat (is := []) rfl (exec_crcWord w s) (respond_rsp ..),
      observe_four_crcByte s ..⟩
  · have hupdate : (feedBytes s (bytes4 0x52755374)).crcR = 0x2B7BF6C3 := by
      rw [feedBytes_crcR, hs]
      decide
    exact step_answers_crcOut (decode_encode (.crcWord 0x52755374)) (exec_crcWord _ s) hupdate (by decide)

/-- Settles O25, by the equation of `CRC_READ`; the later read answers the checksum of the longer message since a read leaves
the register as it is. -/
theorem crcReadAnswersChecksum : Obligations.CrcReadAnswersChecksum := by
  refine ⟨exec_crcRead, rfl, decode_encode .crcRead, fun s arg harg => step_of_nonzeroArg (.inr rfl) harg s,
    ⟨_, exec_crcRead _, rfl⟩, fun s t h => ?_, fun c => ⟨_, exec_crcRead _, rfl⟩, fun s m b hs => ?_, fun s hs => ?_⟩
  · cases h
    refine ⟨_, exec_crcRead _, ?_⟩
    rw [respond_rsp, respond_crcOut, startMessage_crcOut]
    rfl
  · have hout : (feedByte s b).crcOut = crc32 (m ++ [b]) := by
      apply crcOut_of_crcReg
      rw [feedByte_crcR, hs, crcReg_concat]
    refine ⟨[⟨codeOk, s.crcOut⟩, ⟨codeOk, (feedByte s b).crcOut⟩],
      respond (feedByte s b) codeOk (feedByte s b).crcOut, ?_⟩
    rw [observe_presentCommands_cons _ 2 (exec_crcRead s), observe_presentCommands_cons _ 1 (exec_crcByte ..),
      observe_presentCommands_cons _ 0 (exec_crcRead _), ← hout]
    rfl
  · exact step_answers_crcOut (decode_encode .crcRead) (exec_crcRead s) hs (by decide)

/-- Settles O26, by the two cases of `CRC_CHECK`. -/
theorem crcCheckCompares : Obligations.CrcCheckCompares := by
  refine ⟨fun s w hw => exec_crcCheck_of_eq hw, fun s w hw => exec_crcCheck_of_ne hw,
    fun w => ⟨rfl, decode_encode (.crcCheck w)⟩, fun s t w => exec_crcCheck_repeat,
    ⟨_, exec_crcCheck_of_eq (by decide), rfl⟩, fun s t h => ?_, fun s hs => ⟨?_, ?_⟩⟩
  · cases h
    refine ⟨_, exec_crcCheck_of_eq (startMessage_crcOut s), ?_⟩
    rw [respond_rsp, respond_crcOut, startMessage_crcOut]
    rfl
  · have hout : s.crcOut = 0xAE426082 := by
      rw [State.crcOut, hs]
      decide
    exact step_answers_crcOut (decode_encode (.crcCheck 0xAE426082)) (exec_crcCheck_of_eq hout) hs (by decide)
  · have hout : s.crcOut ≠ 0xAE426083 := by
      rw [State.crcOut, hs]
      decide
    exact step_answers_crcOut (decode_encode (.crcCheck 0xAE426083)) (exec_crcCheck_of_ne hout) hs (by decide)

end Sys2Proof.Machine
end

section
/-! The polynomial form of the checksum, 40_crc.md R55: a register is read as a polynomial over the two-element field, its bit 0
the highest coefficient. A step then multiplies by `x` modulo the generator, and `CRCREG` is a remainder. -/

namespace Sys2Proof.Machine

open Polynomial

/-! ### Bits as coefficients -/

/-- A bit as an element of the two-element field. -/
def bitCoeff (v : Bool) : ZMod 2 := if v = true then 1 else 0

@[simp] theorem bitCoeff_false : bitCoeff false = 0 := rfl

@[simp] theorem bitCoeff_true : bitCoeff true = 1 := rfl

theorem bitCoeff_xor (a b : Bool) : bitCoeff (a ^^ b) = bitCoeff a + bitCoeff b := by
  cases a <;> cases b <;> decide

theorem bitCoeff_eq_one_iff (v : Bool) : bitCoeff v = 1 ↔ v = true := by
  cases v <;> decide

/-! ### A bit vector as a polynomial -/

/-- The polynomial of a bit vector, least significant bit first: bit `k` is the coefficient of `x^(w-1-k)`. -/
noncomputable def bitsPoly {w : Nat} (v : BitVec w) : (ZMod 2)[X] :=
  ∑ k ∈ Finset.range w, C (bitCoeff (v.getLsbD k)) * X ^ (w - 1 - k)

theorem bitsPoly_zero (w : Nat) : bitsPoly 0#w = 0 := by
  simp [bitsPoly]

theorem bitsPoly_xor {w : Nat} (u v : BitVec w) : bitsPoly (u ^^^ v) = bitsPoly u + bitsPoly v := by
  simp only [bitsPoly, BitVec.getLsbD_xor, bitCoeff_xor, C_add, add_mul, Finset.sum_add_distrib]

/-- All ones make the polynomial with all coefficients one. -/
theorem bitsPoly_allOnes (w : Nat) : bitsPoly (BitVec.allOnes w) = ∑ i ∈ Finset.range w, X ^ i := by
  rw [← Finset.sum_range_reflect]
  refine Finset.sum_congr rfl fun k hk => ?_
  simp [Finset.mem_range.mp hk]

theorem degree_bitsPoly_lt {w : Nat} (v : BitVec w) : (bitsPoly v).degree < w := by
  refine (degree_sum_le _ _).trans_lt ((Finset.sup_lt_iff (WithBot.bot_lt_coe w)).mpr fun k hk => ?_)
  have hexp : w - 1 - k < w := by have := Finset.mem_range.mp hk; omega
  exact (degree_C_mul_X_pow_le _ _).trans_lt (Nat.cast_lt.mpr hexp)

theorem coeff_bitsPoly {w k : Nat} (v : BitVec w) (hk : k < w) :
    (bitsPoly v).coeff (w - 1 - k) = bitCoeff (v.getLsbD k) := by
  rw [bitsPoly, finsetSum_coeff, Finset.sum_eq_single_of_mem k (Finset.mem_range.mpr hk)]
  · simp
  · intro j hj hne
    have hexp : w - 1 - k ≠ w - 1 - j := by have := Finset.mem_range.mp hj; omega
    rw [coeff_C_mul_X_pow, if_neg hexp]

/-- Shifting right by one multiplies by `x`, but for the bit shifted out. -/
theorem X_mul_bitsPoly {w : Nat} (v : BitVec (w + 1)) :
    X * bitsPoly v = bitsPoly (v >>> 1) + C (bitCoeff (v.getLsbD 0)) * X ^ (w + 1) := by
  have hshift : bitsPoly (v >>> 1) = ∑ k ∈ Finset.range w, C (bitCoeff (v.getLsbD (k + 1))) * X ^ (w - k) := by
    simp [bitsPoly, Finset.sum_range_succ, Nat.add_comm 1]
  rw [hshift, bitsPoly, Finset.mul_sum, Finset.sum_range_succ']
  refine congrArg₂ (· + ·) (Finset.sum_congr rfl fun k hk => ?_) ?_
  · have hexp : w - k = w + 1 - 1 - (k + 1) + 1 := by have := Finset.mem_range.mp hk; omega
    rw [hexp, pow_succ]
    ring
  · rw [Nat.sub_zero, Nat.add_sub_cancel]
    ring

/-- A byte extended with zeros has its bits 24 places higher. -/
theorem bitsPoly_setWidth (b : Byte) : bitsPoly (b.setWidth 32) = X ^ 24 * bitsPoly b := by
  have hhigh (k : Nat) : (b.setWidth 32).getLsbD (8 + k) = false := by simp
  rw [bitsPoly, Finset.sum_range_add _ 8 24, bitsPoly, Finset.mul_sum]
  simp only [hhigh, bitCoeff_false, C_0, zero_mul, Finset.sum_const_zero, add_zero]
  refine Finset.sum_congr rfl fun k hk => ?_
  have hk8 := Finset.mem_range.mp hk
  have hexp : 32 - 1 - k = 24 + (8 - 1 - k) := by omega
  have hbit : (b.setWidth 32).getLsbD k = b.getLsbD k := by simp; omega
  rw [hexp, hbit, pow_add]
  ring

/-! ### The generator -/

/-- The generator polynomial: `POLY_R`, its bits read from 0, under `x^32`. -/
noncomputable def generator : (ZMod 2)[X] := X ^ 32 + bitsPoly polyR

/-- The generator with its terms written out, as R55 has it. -/
theorem generator_eq : generator = X ^ 32 + X ^ 26 + X ^ 23 + X ^ 22 + X ^ 16 + X ^ 12 + X ^ 11 + X ^ 10 + X ^ 8 + X ^ 7 +
    X ^ 5 + X ^ 4 + X ^ 2 + X + 1 := by
  simp [generator, bitsPoly, polyR, Finset.sum_range_succ]
  ring

theorem generator_monic : generator.Monic := monic_X_pow_add (degree_bitsPoly_lt polyR)

theorem degree_generator : generator.degree = 32 := by
  have hlower : (bitsPoly polyR).degree < (X ^ 32 : (ZMod 2)[X]).degree := by
    rw [degree_X_pow]
    exact degree_bitsPoly_lt polyR
  rw [generator, degree_add_eq_left_of_degree_lt hlower, degree_X_pow]
  rfl

/-! ### The update modulo the generator -/

/-- A step multiplies by `x` and takes the generator away where a bit was shifted out (in characteristic 2, adds it). -/
theorem bitsPoly_crcStep1 (c : Word) :
    bitsPoly (crcStep1 c) = X * bitsPoly c + C (bitCoeff (c.getLsbD 0)) * generator := by
  have hpoly : bitsPoly (if c.getLsbD 0 then polyR else 0) = C (bitCoeff (c.getLsbD 0)) * bitsPoly polyR := by
    cases c.getLsbD 0 <;> simp [bitsPoly_zero]
  have hcancel := CharTwo.add_self_eq_zero (C (bitCoeff (c.getLsbD 0)) * X ^ 32 : (ZMod 2)[X])
  rw [crcStep1, bitsPoly_xor, hpoly, X_mul_bitsPoly, generator]
  linear_combination -hcancel

/-- Polynomials modulo the generator. -/
noncomputable abbrev modGenerator : (ZMod 2)[X] →+* AdjoinRoot generator := AdjoinRoot.mk generator

theorem modGenerator_crcSteps (n : Nat) (c : Word) :
    modGenerator (bitsPoly (crcSteps n c)) = modGenerator (X ^ n * bitsPoly c) := by
  induction n generalizing c with
  | zero => simp
  | succ n ih =>
    have hself : modGenerator generator = 0 := AdjoinRoot.mk_self
    rw [crcSteps_succ, ih, bitsPoly_crcStep1]
    simp only [map_mul, map_add, map_pow, hself]
    ring

/-- The byte update multiplies the register by `x^8` and adds the byte under `x^32`. -/
theorem modGenerator_crcUpd8 (c : Word) (b : Byte) :
    modGenerator (bitsPoly (crcUpd8 c b)) = modGenerator (X ^ 8 * bitsPoly c + X ^ 32 * bitsPoly b) := by
  rw [crcUpd8, modGenerator_crcSteps, bitsPoly_xor, bitsPoly_setWidth]
  ring_nf

/-! ### The message -/

/-- The message polynomial `M` of R55: bit `j` of byte `k` is its coefficient number `8k + j`, the highest first. -/
noncomputable def messagePoly (s : List Byte) : (ZMod 2)[X] :=
  ∑ i ∈ Finset.range (8 * s.length), C (bitCoeff ((s.getD (i / 8) 0).getLsbD (i % 8))) * X ^ (8 * s.length - 1 - i)

/-- One more byte comes below the message. -/
theorem messagePoly_concat (s : List Byte) (b : Byte) :
    messagePoly (s ++ [b]) = X ^ 8 * messagePoly s + bitsPoly b := by
  have hlength : 8 * (s ++ [b]).length = 8 * s.length + 8 := by simp; ring
  rw [messagePoly, hlength, Finset.sum_range_add, messagePoly, Finset.mul_sum, bitsPoly]
  refine congrArg₂ (· + ·) (Finset.sum_congr rfl fun i hi => ?_) (Finset.sum_congr rfl fun i hi => ?_)
  · have hi := Finset.mem_range.mp hi
    have hbyte : (s ++ [b]).getD (i / 8) 0 = s.getD (i / 8) 0 := List.getD_append _ _ _ _ (by omega)
    have hexp : 8 * s.length + 8 - 1 - i = 8 + (8 * s.length - 1 - i) := by omega
    rw [hbyte, hexp, pow_add]
    ring
  · have hi := Finset.mem_range.mp hi
    have hplace : (8 * s.length + i) / 8 = s.length := by omega
    have hbit : (8 * s.length + i) % 8 = i := by omega
    have hbyte : (s ++ [b]).getD s.length 0 = b := by simp
    have hexp : 8 * s.length + 8 - 1 - (8 * s.length + i) = 8 - 1 - i := by omega
    rw [hplace, hbit, hbyte, hexp]

/-- The polynomial `x^32 M + x^N I` of R55, whose remainder the register holds. -/
noncomputable def dividend (s : List Byte) : (ZMod 2)[X] :=
  X ^ 32 * messagePoly s + X ^ (8 * s.length) * ∑ i ∈ Finset.range 32, X ^ i

/-- Feeding a message divides it: the register is congruent to the dividend. -/
theorem modGenerator_crcReg (s : List Byte) : modGenerator (bitsPoly (crcReg s)) = modGenerator (dividend s) := by
  induction s using List.reverseRecOn with
  | nil =>
    have hinit : bitsPoly (crcReg []) = ∑ i ∈ Finset.range 32, X ^ i := bitsPoly_allOnes 32
    simp [hinit, dividend, messagePoly]
  | append_singleton s b ih =>
    have hstep : dividend (s ++ [b]) = X ^ 8 * dividend s + X ^ 32 * bitsPoly b := by
      rw [dividend, messagePoly_concat, dividend, List.length_append, List.length_singleton]
      ring
    rw [crcReg_concat, modGenerator_crcUpd8, hstep]
    simp only [map_add, map_mul, ih]

/-- The register holds the remainder itself, since its polynomial has a degree below 32. -/
theorem dividend_modByMonic (s : List Byte) : dividend s %ₘ generator = bitsPoly (crcReg s) := by
  have hdegree : (bitsPoly (crcReg s)).degree < generator.degree := by
    rw [degree_generator]
    exact degree_bitsPoly_lt _
  have hdvd := AdjoinRoot.mk_eq_mk.mp (modGenerator_crcReg s).symm
  rw [modByMonic_eq_of_dvd_sub generator_monic hdvd, (modByMonic_eq_self_iff generator_monic).mpr hdegree]

/-- Settles O15: the register is the remainder by `dividend_modByMonic`, and its bits are the coefficients by
`coeff_bitsPoly`. -/
theorem polynomialForm : Obligations.PolynomialForm := by
  intro s N m x M I G R
  have hR : R = bitsPoly (crcReg s) := by
    have hG : G = generator := generator_eq.symm
    have hM : M = messagePoly s := rfl
    rw [← dividend_modByMonic, ← hG, dividend, ← hM]
  refine ⟨fun k hk => ?_, crc32_eq_not s⟩
  rw [hR, coeff_bitsPoly (crcReg s) hk, bitCoeff_eq_one_iff]

end Sys2Proof.Machine
end

section
/-! Type codes, 41_typecode.md: four bytes and their packed operand, letters and the bit that is their case, the response of
`TC_DECODE` as a function of its operand alone, and the number of operands that parse. -/

namespace Sys2Proof.Machine

/-! ### Four bytes and their packed operand (20_memory.md R25) -/

@[simp] theorem byte0_pack4 (b0 b1 b2 b3 : Byte) : byte0 (pack4 b0 b1 b2 b3) = b0 :=
  (BitVec.extractLsb'_append_eq_of_le (by decide)).trans
    ((BitVec.extractLsb'_append_eq_of_le (by decide)).trans BitVec.extractLsb'_append_eq_left)

@[simp] theorem byte1_pack4 (b0 b1 b2 b3 : Byte) : byte1 (pack4 b0 b1 b2 b3) = b1 :=
  (BitVec.extractLsb'_append_eq_of_le (by decide)).trans
    ((BitVec.extractLsb'_append_eq_of_le (by decide)).trans BitVec.extractLsb'_append_eq_right)

@[simp] theorem byte2_pack4 (b0 b1 b2 b3 : Byte) : byte2 (pack4 b0 b1 b2 b3) = b2 :=
  (BitVec.extractLsb'_append_eq_of_le (by decide)).trans BitVec.extractLsb'_append_eq_right

@[simp] theorem byte3_pack4 (b0 b1 b2 b3 : Byte) : byte3 (pack4 b0 b1 b2 b3) = b3 :=
  BitVec.extractLsb'_append_eq_right

@[simp] theorem bytes4_pack4 (b0 b1 b2 b3 : Byte) : bytes4 (pack4 b0 b1 b2 b3) = [b0, b1, b2, b3] := by
  simp [bytes4]

/-- Packing the bytes of an operand gives it back. -/
@[simp] theorem pack4_bytes (w : Word) : pack4 (byte0 w) (byte1 w) (byte2 w) (byte3 w) = w := by
  have h01 : byte0 w ++ byte1 w = w.extractLsb' 16 16 := BitVec.extractLsb'_append_extractLsb'_eq_extractLsb' rfl
  have h012 : w.extractLsb' 16 16 ++ byte2 w = w.extractLsb' 8 24 :=
    BitVec.extractLsb'_append_extractLsb'_eq_extractLsb' rfl
  rw [pack4, h01, h012]
  exact BitVec.extractLsb'_append_extractLsb'

@[simp] theorem packHead_bytes4 (w : Word) : packHead (bytes4 w) = some w :=
  congrArg some (pack4_bytes w)

theorem bytes4_injective : Function.Injective bytes4 := by
  intro w v h
  simpa using congrArg packHead h

/-- The bytes as the rules write them, `w[31:24]` to `w[7:0]`. -/
theorem extractLsb_eq_byte0 (w : Word) : w.extractLsb 31 24 = byte0 w := rfl

theorem extractLsb_eq_byte1 (w : Word) : w.extractLsb 23 16 = byte1 w := rfl

theorem extractLsb_eq_byte2 (w : Word) : w.extractLsb 15 8 = byte2 w := rfl

theorem extractLsb_eq_byte3 (w : Word) : w.extractLsb 7 0 = byte3 w := rfl

/-- The flag bits of a type code are bits 29, 21, 13 and 5 of its operand. -/
theorem flagBit_byte0 (w : Word) : flagBit (byte0 w) = w.getLsbD 29 := by
  simp [flagBit_eq_getLsbD, byte0]

theorem flagBit_byte1 (w : Word) : flagBit (byte1 w) = w.getLsbD 21 := by
  simp [flagBit_eq_getLsbD, byte1]

theorem flagBit_byte2 (w : Word) : flagBit (byte2 w) = w.getLsbD 13 := by
  simp [flagBit_eq_getLsbD, byte2]

theorem flagBit_byte3 (w : Word) : flagBit (byte3 w) = w.getLsbD 5 := by
  simp [flagBit_eq_getLsbD, byte3]

/-! ### Letters -/

theorem isAlpha_iff_toNat (b : Byte) :
    isAlpha b = true ↔ (0x41 ≤ b.toNat ∧ b.toNat ≤ 0x5A) ∨ (0x61 ≤ b.toNat ∧ b.toNat ≤ 0x7A) := by
  rw [isAlpha_iff, isUpper_iff, isLower_iff]

theorem isAlpha_of_isLower {b : Byte} (h : isLower b = true) : isAlpha b = true :=
  (isAlpha_iff b).mpr (.inr h)

/-- No byte is of both cases. -/
theorem isUpper_and_isLower (b : Byte) : (isUpper b && isLower b) = false := by
  rw [← Bool.not_eq_true, Bool.and_eq_true, isUpper_iff, isLower_iff]
  omega

/-- The letters are 7-bit characters. -/
theorem isAlpha_eq_false_of_bit7 {b : Byte} (h : b.getLsbD 7 = true) : isAlpha b = false := by
  have hge : 128 ≤ b.toNat := BitVec.toNat_ge_of_msb_true (b.msb_eq_getLsbD_last.trans h)
  rw [← Bool.not_eq_true, isAlpha_iff_toNat]
  omega

theorem tcParseOk_iff_letters (w : Word) : tcParseOk w = true ↔
    isAlpha (byte0 w) = true ∧ isAlpha (byte1 w) = true ∧ isAlpha (byte2 w) = true ∧ isAlpha (byte3 w) = true := by
  simp [tcParseOk, and_assoc]

/-! ### The response of `TC_DECODE` -/

/-- The response to a type code. It takes no state: the block reads none (41_typecode.md R81). -/
def tcResponse (w : Word) : Response :=
  if tcParseOk w then ⟨codeOk, tcFlagData w⟩ else ⟨FailureKind.invalidTypeCode.code, 0⟩

theorem tcResponse_of_letters {w : Word} (h : tcParseOk w = true) : tcResponse w = ⟨0x00, tcFlagData w⟩ := if_pos h

theorem tcResponse_of_other {w : Word} (h : tcParseOk w = false) : tcResponse w = ⟨0x01, 0⟩ := if_neg (by simp [h])

/-- `TC_DECODE` gives its response and does nothing else. -/
theorem exec_tcDecode (w : Word) (s : State) : exec (.tcDecode w) s = .next { s with rsp := some (tcResponse w) } := by
  cases h : tcParseOk w with
  | true => rw [exec_tcDecode_of_letters s h, tcResponse_of_letters h]; rfl
  | false => rw [exec_tcDecode_of_other s h, tcResponse_of_other h]; rfl

theorem step_tcDecode {cmd : CmdWord} {w : Word} (hd : decode cmd = .legal (.tcDecode w)) (s : State) :
    step (presentNext s cmd) = .next { s with rsp := some (tcResponse w) } :=
  (step_presentNext_of_legal s hd).trans (exec_tcDecode w s)

theorem tcResponse_code_eq_ok_iff (w : Word) : (tcResponse w).code = 0x00 ↔ tcParseOk w = true := by
  cases h : tcParseOk w with
  | true => simp [tcResponse_of_letters h]
  | false => simp [tcResponse_of_other h]

theorem tcResponse_code_eq_invalid_iff (w : Word) : (tcResponse w).code = 0x01 ↔ tcParseOk w = false := by
  cases h : tcParseOk w with
  | true => simp [tcResponse_of_letters h]
  | false => simp [tcResponse_of_other h]

/-! ### The five flags in the response data -/

/-- The layout of the response data: 27 zero bits, then the flags (41_typecode.md R81). -/
def flagWord (valid safe res pub crit : Bool) : Word :=
  (0 : BitVec 27) ++ BitVec.ofBool valid ++ BitVec.ofBool safe ++ BitVec.ofBool res ++ BitVec.ofBool pub ++
    BitVec.ofBool crit

@[simp] theorem flagWord_bits : ∀ valid safe res pub crit, (flagWord valid safe res pub crit)[0] = crit ∧
    (flagWord valid safe res pub crit)[1] = pub ∧ (flagWord valid safe res pub crit)[2] = res ∧
    (flagWord valid safe res pub crit)[3] = safe ∧ (flagWord valid safe res pub crit)[4] = valid := by
  decide

/-- The bits above the flags are zero. -/
@[simp] theorem flagWord_highBits : ∀ valid safe res pub crit,
    (flagWord valid safe res pub crit).extractLsb 31 5 = 0 := by
  decide

/-- The data read from the flag bits; `VALID` is a copy of `RESERVED`. -/
theorem tcFlagData_eq_flagWord (w : Word) : tcFlagData w =
    flagWord (!flagBit (byte2 w)) (flagBit (byte3 w)) (!flagBit (byte2 w)) (!flagBit (byte1 w)) (!flagBit (byte0 w)) :=
  rfl

/-- For a type code that parses the flags are the five predicates. -/
theorem tcFlagData_eq_predicates {w : Word} (h : tcParseOk w = true) :
    tcFlagData w = flagWord (isValid w) (safeToCopy w) (reserved w) (isPublic w) (critical w) :=
  tcFlagData_of_letters h

/-! ### The predicates as bits of the operand (41_typecode.md R74 to R78) -/

theorem isValid_eq_reserved {w : Word} (h : tcParseOk w = true) : isValid w = reserved w := by
  rw [isValid, reserved, h, Bool.true_and]

theorem predicates_eq_bits {w : Word} (h : tcParseOk w = true) : critical w = !w.getLsbD 29 ∧
    isPublic w = !w.getLsbD 21 ∧ reserved w = !w.getLsbD 13 ∧ safeToCopy w = w.getLsbD 5 := by
  obtain ⟨h0, h1, h2, h3⟩ := (tcParseOk_iff_letters w).mp h
  rw [← flagBit_byte0, ← flagBit_byte1, ← flagBit_byte2, ← flagBit_byte3]
  exact ⟨isUpper_eq_not_flagBit h0, isUpper_eq_not_flagBit h1, isUpper_eq_not_flagBit h2, isLower_eq_flagBit h3⟩

/-! ### How many operands parse (41_typecode.md R71, R73) -/

/-- The 52 letters. -/
abbrev Letter := { b : Byte // isAlpha b = true }

theorem card_letter : Nat.card Letter = 52 := by
  have hbytes : Letter ≃ { i : Fin 256 // isAlpha (BitVec.ofFin i) = true } :=
    BitVec.equivFin.toEquiv.subtypeEquiv fun _ => Iff.rfl
  rw [Nat.card_congr hbytes, Nat.card_eq_fintype_card]
  decide

/-- A type code that parses is four letters. -/
def parsingEquivLetters : { w : Word // tcParseOk w = true } ≃ Letter × Letter × Letter × Letter where
  toFun w :=
    have h := (tcParseOk_iff_letters w).mp w.property
    (⟨byte0 w, h.1⟩, ⟨byte1 w, h.2.1⟩, ⟨byte2 w, h.2.2.1⟩, ⟨byte3 w, h.2.2.2⟩)
  invFun := fun (b0, b1, b2, b3) => ⟨pack4 b0 b1 b2 b3, (tcParseOk_iff_letters _).mpr (by simp [b0.2, b1.2, b2.2, b3.2])⟩
  left_inv w := by simp
  right_inv p := by simp

theorem card_parsing : Nat.card { w : Word // tcParseOk w = true } = 52 ^ 4 := by
  rw [Nat.card_congr parsingEquivLetters, Nat.card_prod, Nat.card_prod, Nat.card_prod, card_letter]
  norm_num

/-! ### The obligations -/

/-- Settles O27: the response is a function of the operand (`exec_tcDecode`), its data the flag bits (`flagWord`); the type
code `"Rust"` parses and is not valid. -/
theorem tcDecodeReportsPredicates : Obligations.TcDecodeReportsPredicates := by
  refine ⟨fun s w h0 h1 h2 h3 => ⟨tcFlagData w, ?_, ?_⟩, fun s w h => ?_, fun w => ⟨rfl, decode_encode (.tcDecode w)⟩,
    ⟨0x52757374, fun s => ⟨_, _, exec_tcDecode .., rfl, by decide, by decide⟩⟩,
    fun s => ⟨_, _, exec_tcDecode .., ?_, exec_tcDecode .., ?_⟩, fun s t s' t' w hs ht => ?_,
    fun s => ⟨⟨_, _, step_tcDecode (w := 0x52755374) (by decide) s, rfl, by decide⟩,
      ⟨_, _, step_tcDecode (w := 0x52753174) (by decide) s, rfl, by decide⟩⟩⟩
  · have hw : tcParseOk w = true := (tcParseOk_iff_letters w).mpr ⟨h0, h1, h2, h3⟩
    rw [exec_tcDecode, tcResponse_of_letters hw]
  · simp [tcFlagData_eq_flagWord, extractLsb_eq_byte0, extractLsb_eq_byte1, extractLsb_eq_byte2, extractLsb_eq_byte3,
      flagBit_eq_getLsbD]
  · rw [exec_tcDecode, tcResponse_of_other h]
  · exact congrArg some (tcResponse_of_other (by decide))
  · exact congrArg some (tcResponse_of_other (by decide))
  · rw [exec_tcDecode] at hs ht
    cases hs; cases ht; rfl

/-- Settles O39: the code by the two cases of the response, the count by `card_parsing`. -/
theorem parsingTypeCodes : Obligations.ParsingTypeCodes := by
  refine ⟨tcParseOk_iff, fun s w => ?_, fun w h0 h1 h2 h3 => ?_, card_parsing⟩
  · exact ⟨_, _, exec_tcDecode w s, rfl, tcResponse_code_eq_ok_iff w, tcResponse_code_eq_invalid_iff w⟩
  · exact (tcParseOk_iff_letters w).mpr ⟨h0, h1, isAlpha_of_isLower h2, h3⟩

/-- Settles O40: case by the bit of the letter (`predicates_eq_bits`), the response by its data (`tcFlagData_eq_predicates`). -/
theorem fivePredicates : Obligations.FivePredicates := by
  refine ⟨fun w => ⟨rfl, rfl, rfl, rfl, rfl⟩, fun w h => ?_, fun s w h => ⟨_, _, exec_tcDecode w s, rfl, ?_⟩, by decide,
    by decide, by decide⟩
  · obtain ⟨hcrit, hpub, hres, hsafe⟩ := predicates_eq_bits h
    exact ⟨hcrit, hpub, hres, hsafe, isValid_eq_reserved h⟩
  · rw [tcResponse_of_letters h, tcFlagData_eq_predicates h]
    simp

/-- Settles O37: by the ranges of the letters; the neighbours and the count by evaluation. -/
theorem alphabeticBytes : Obligations.AlphabeticBytes := by
  refine ⟨isAlpha_iff_toNat, by decide, fun b hlow hhigh => ?_, fun b => isAlpha_eq_false_of_bit7, by decide⟩
  have hlow : 0x30 ≤ b.toNat := hlow
  have hhigh : b.toNat ≤ 0x39 := hhigh
  rw [← Bool.not_eq_true, isAlpha_iff_toNat]
  omega

/-- Settles O38: by the ranges, and for a letter by its flag bit. -/
theorem caseIsBitFive : Obligations.CaseIsBitFive := by
  refine ⟨fun b => ⟨isUpper_iff b, isLower_iff b, rfl, isUpper_and_isLower b⟩, fun b h => ?_, by decide,
    fun s t w hw hexec => ?_⟩
  · rw [isUpper_eq_not_flagBit h, isLower_eq_flagBit h, flagBit_eq_getLsbD]
    simp
  · rw [exec_tcDecode, tcResponse_of_other hw] at hexec
    cases hexec
    rfl

/-- Settles O41: packing loses nothing, since unpacking undoes it, nor does unpacking. -/
theorem typeCodeEquality : Obligations.TypeCodeEquality := by
  refine ⟨fun w v => bytes4_injective.eq_iff, fun a0 a1 a2 a3 b0 b1 b2 b3 => ⟨fun h => ?_, fun h => ?_⟩, by decide⟩
  · exact Option.some.inj (congrArg packHead h)
  · simpa only [bytes4_pack4] using congrArg bytes4 h

end Sys2Proof.Machine
end

section
/-! Failures (60_exceptions.md R91, R93): a failing step writes its response and nothing else, and no later step sees that
response. -/

namespace Sys2Proof.Machine

/-- A command does not read the response port: each writes its own response over it. -/
theorem exec_with_rsp (i : Instr) (s : State) (r : Option Response) : exec i { s with rsp := r } = exec i s := by
  cases i with
  | crcInit => rfl
  | crcByte b => rfl
  | crcWord w => rfl
  | crcRead => rfl
  | crcCheck w => rfl
  | tcDecode w => rfl

/-- A reset edge. -/
theorem step_of_reset {s : State} (hp : s.currentCycle.presented = .reset) : step s = .next (resetEdge s.advance) := by
  simp [step, hp]

/-- No edge reads the response port. -/
theorem step_with_rsp (s : State) (r : Option Response) : step { s with rsp := r } = step s := by
  have hsame : ({ s with rsp := r } : State).currentCycle = s.currentCycle := rfl
  cases hp : s.currentCycle.presented with
  | reset => rw [step_of_reset hp, step_of_reset (hsame ▸ hp)]; rfl
  | idle => rw [step_of_idle hp, step_of_idle (hsame ▸ hp)]; rfl
  | command cmd =>
    cases hd : decode cmd with
    | legal i =>
      rw [step_of_legal hp hd, step_of_legal (hsame ▸ hp) hd]
      exact exec_with_rsp i s.advance r
    | illegal why => rw [step_of_illegal hp hd, step_of_illegal (hsame ▸ hp) hd]; rfl

/-- A step with a failure code leaves the state as it was, with the response given and the input consumed. -/
theorem eq_of_failing_step {s t : State} {r : Response} (hstep : step s = .next t) (hr : t.rsp = some r)
    (hcode : r.code ≠ codeOk) : t = { s with rsp := some r, inputs := s.inputs.tail } := by
  obtain ⟨cmd, hp⟩ := exists_presented_of_rsp hstep hr
  obtain ⟨hs, -⟩ := eq_presentNext_of_command hp
  rw [hs] at hstep
  obtain ⟨k, hk, rfl⟩ | ⟨-, hok⟩ := response_cases hstep hr
  · exact Host.Outcome.next.inj (hstep.symm.trans (step_of_fails hk))
  · exact absurd hok hcode

/-! ### The obligations -/

/-- Settles O44: the next state by `eq_of_failing_step`; it differs from the state without the failure, and the failing state
with its input restored differs from the old one, in the response alone, which no step reads. -/
theorem failuresLeaveNoTrace : Obligations.FailuresLeaveNoTrace := by
  intro s t r hstep hr hcode
  have ht := eq_of_failing_step hstep hr hcode
  refine ⟨ht, ?_, ?_⟩
  · rw [ht]
    exact step_with_rsp { s with inputs := s.inputs.tail } (some r)
  · have hagain : { t with inputs := s.inputs } = { s with rsp := some r } := by rw [ht]
    rw [hagain, step_with_rsp, hstep]

/-- Settles O7: by the step of a presented illegal word, whose answer is the response alone. -/
theorem illegalCommandWritesNothing : Obligations.IllegalCommandWritesNothing :=
  fun s _ _ hd => step_presentNext_of_illegal s hd

end Sys2Proof.Machine
end

section
/-! Runs of words: a run goes on from the state its first part left, and any words whatever, legal or not, keep the register on
the message they make (10_state.md R18, 70_reset_and_hazards.md R113). -/

namespace Sys2Proof.Machine

/-! ### Putting runs together -/

/-- A run goes on from the state its first part left. -/
theorem observe_add {m : Nat} {s t : State} {rs : List Response} (n : Nat) (h : observe m s = some (rs, t)) :
    observe (m + n) s = (observe n t).map fun q => (rs ++ q.1, q.2) := by
  induction m generalizing s rs with
  | zero =>
    cases h
    simp
  | succ m ih =>
    cases hstep : step s with
    | next u =>
      rw [observe_succ_of_next hstep] at h
      obtain ⟨⟨rs', t'⟩, hrun, hq⟩ := Option.map_eq_some_iff.mp h
      cases hq
      rw [Nat.add_right_comm, observe_succ_of_next hstep, ih hrun, Option.map_map]
      simp [Function.comp_def]
    | fault r => simp [observe, hstep] at h
    | refused r => simp [observe, hstep] at h

/-- A run with one more step, which answers. -/
theorem observe_concat {m : Nat} {s t u : State} {rs : List Response} {r : Response} (h : observe m s = some (rs, t))
    (hstep : step t = .next u) (hr : u.rsp = some r) : observe (m + 1) s = some (rs ++ [r], u) := by
  rw [observe_add 1 h, observe_succ_of_next hstep, hr]
  rfl

/-! ### What one word does to the message -/

theorem messageStep_of_crcInit {cmd : CmdWord} (hd : decode cmd = .legal .crcInit) (m : List Byte) :
    messageStep m cmd = [] := by
  simp [messageStep, hd]

theorem messageStep_of_fedBytes {cmd : CmdWord} {i : Instr} {bs : List Byte} (hd : decode cmd = .legal i)
    (hbs : fedBytes i = some bs) (m : List Byte) : messageStep m cmd = m ++ bs := by
  cases i with
  | crcInit => cases hbs
  | _ => simp [messageStep, hd, hbs]

theorem messageStep_of_keepsCrc {cmd : CmdWord} (h : keepsCrc cmd = true) (m : List Byte) : messageStep m cmd = m := by
  cases hd : decode cmd with
  | illegal why => simp [messageStep, hd]
  | legal i =>
    cases i with
    | crcInit | crcByte b | crcWord w => simp [keepsCrc, hd, writesCrc] at h
    | crcRead | crcCheck w | tcDecode w => simp [messageStep, hd, fedBytes]

theorem foldl_messageStep_of_keepsCrc {ws : List CmdWord} (h : ∀ c ∈ ws, keepsCrc c = true) (m : List Byte) :
    ws.foldl messageStep m = m := by
  induction ws with
  | nil => rfl
  | cons c ws ih =>
    rw [List.foldl_cons, messageStep_of_keepsCrc (h c List.mem_cons_self), ih fun d hd => h d (List.mem_cons_of_mem c hd)]

theorem foldl_messageStep_of_allFeed {fs : List Instr} (h : allFeed fs = true) (m : List Byte) :
    (fs.map encode).foldl messageStep m = m ++ fedMessage fs := by
  induction fs generalizing m with
  | nil => simp [fedMessage]
  | cons i fs ih =>
    obtain ⟨hi, hfs⟩ : (fedBytes i).isSome = true ∧ allFeed fs = true := by simpa [allFeed] using h
    obtain ⟨bs, hbs⟩ := Option.isSome_iff_exists.mp hi
    rw [List.map_cons, List.foldl_cons, messageStep_of_fedBytes (decode_encode i) hbs, ih hfs]
    simp [fedMessage, hbs]

/-! ### The register follows the message -/

/-- One word, legal or not, keeps the register on the message, and the ghost message with it. -/
theorem step_presentNext_messageStep {s : State} {m : List Byte} (hs : s.crcR = crcReg m) (cmd : CmdWord) :
    ∃ t r, step (presentNext s cmd) = .next t ∧ t.rsp = some r ∧ t.inputs = s.inputs ∧
      t.crcR = crcReg (messageStep m cmd) ∧ (s.msg = some m → t.msg = some (messageStep m cmd)) := by
  cases hd : decode cmd with
  | illegal why =>
    have hkeeps : messageStep m cmd = m := messageStep_of_keepsCrc (by simp [keepsCrc, hd]) m
    rw [hkeeps]
    exact ⟨_, _, step_presentNext_of_illegal s hd, answerIllegal_rsp s, rfl, hs, id⟩
  | legal i =>
    rw [step_presentNext_of_legal s hd]
    obtain ⟨n, code, data, hexec, hn⟩ := exec_shape i s
    refine ⟨_, _, hexec, respond_rsp .., ?_⟩
    obtain ⟨rfl, hwrites⟩ | ⟨rfl, rfl⟩ | ⟨bs, hbs, rfl, -⟩ := hn
    · have hkeeps : messageStep m cmd = m := messageStep_of_keepsCrc (by simp [keepsCrc, hd, hwrites]) m
      rw [hkeeps]
      exact ⟨rfl, hs, id⟩
    · rw [messageStep_of_crcInit hd]
      exact ⟨rfl, rfl, fun _ => rfl⟩
    · rw [messageStep_of_fedBytes hd hbs, crcReg_append, ← hs]
      exact ⟨feedBytes_inputs s bs, feedBytes_crcR s bs, fun hm => by simp [hm]⟩

/-- Any words keep the register on the message they make; each is answered. -/
theorem observe_presentWords_messageStep (ws : List CmdWord) {s : State} {m : List Byte} (hs : s.crcR = crcReg m) :
    ∃ rs u, observe ws.length (presentWords s ws) = some (rs, u) ∧ rs.length = ws.length ∧ u.inputs = s.inputs ∧
      u.crcR = crcReg (ws.foldl messageStep m) ∧ (s.msg = some m → u.msg = some (ws.foldl messageStep m)) := by
  induction ws generalizing s m with
  | nil => exact ⟨[], s, rfl, rfl, rfl, hs, id⟩
  | cons cmd ws ih =>
    obtain ⟨t, r, hstep, hr, hinputs, hcrc, hmsg⟩ := step_presentNext_messageStep (s := presentWords s ws) hs cmd
    have ht : presentWords { t with inputs := s.inputs } ws = t := state_ext rfl rfl rfl hinputs.symm
    obtain ⟨rs, u, hrun, hlen, hin, hreg, hghost⟩ := ih (s := { t with inputs := s.inputs }) hcrc
    rw [ht] at hrun
    refine ⟨r :: rs, u, ?_, congrArg (· + 1) hlen, hin, hreg, fun hm => hghost (hmsg hm)⟩
    rw [List.length_cons, presentWords_cons, observe_succ_of_next hstep, hrun, hr]
    rfl

/-- `CRC_READ` behind any words answers the checksum of the message they make. -/
theorem observe_presentWords_crcRead (ws : List CmdWord) {s : State} {m : List Byte} (hs : s.crcR = crcReg m) :
    ∃ rs u, observe (ws.length + 1) (presentWords s (ws ++ [encode .crcRead])) =
      some (rs ++ [⟨0x00, crc32 (ws.foldl messageStep m)⟩], u) := by
  obtain ⟨rs, t, hrun, -, hinputs, hcrc, -⟩ :=
    observe_presentWords_messageStep ws (s := presentNext s (encode .crcRead)) hs
  have hp : t.currentCycle.presented = .command (encode .crcRead) := presented_of_head hinputs
  have hstep := (step_of_legal hp (decode_encode .crcRead)).trans (exec_crcRead t.advance)
  have hout : t.advance.crcOut = crc32 (ws.foldl messageStep m) := crcOut_of_crcReg hcrc
  rw [presentWords_append]
  exact ⟨rs, _, observe_concat hrun hstep (hout ▸ respond_rsp ..)⟩

/-! ### The obligation -/

/-- Settles O35: the words between the two feedings leave the message as it is, so the words together make `m` and all the
bytes fed, and the read answers its checksum; the rule's example by evaluation. -/
theorem messagesConcatenate : Obligations.MessagesConcatenate := by
  refine ⟨fun s m fs gs ws hs hfs hgs hws => ?_, ?_, by decide, by decide⟩
  · have hmessage : (fs.map encode ++ ws ++ gs.map encode).foldl messageStep m = m ++ fedMessage fs ++ fedMessage gs := by
      rw [List.foldl_append, List.foldl_append, foldl_messageStep_of_allFeed hfs, foldl_messageStep_of_keepsCrc hws,
        foldl_messageStep_of_allFeed hgs]
    have hread := observe_presentWords_crcRead (fs.map encode ++ ws ++ gs.map encode) hs
    rwa [hmessage, List.length_append, List.length_append, List.length_map, List.length_map] at hread
  · exact ⟨[⟨0x00, 0xE8B7BE43⟩, ⟨0x00, 0xE8B7BE43⟩, ⟨0x00, 0x9E83486D⟩, ⟨0x00, 0x352441C2⟩],
      ⟨0xCADBBE3D, some [0x61, 0x62, 0x63], some ⟨0x00, 0x352441C2⟩, []⟩, by decide +kernel, rfl⟩

end Sys2Proof.Machine
end

section
/-! Reset and power-up (70_reset_and_hazards.md R110 to R112): the reset edge, the block before its first reset, and the two
cycles either of which is the whole start-up. -/

namespace Sys2Proof.Machine

/-! ### The state after reset -/

/-- A reset edge leaves the state right after reset, whatever was before it. -/
theorem resetEdge_eq (s : State) : resetEdge s = { State.reset with inputs := s.inputs } := rfl

/-- `CRC_INIT` leaves that state but for its response. -/
theorem respond_startMessage_eq (s : State) (code : Byte) (data : Word) :
    respond (startMessage s) code data = { State.reset with rsp := some ⟨code, data⟩, inputs := s.inputs } := rfl

/-! ### Start-up -/

/-- A cycle in which the host resets the block or presents `CRC_INIT`. -/
def Cycle.StartsUp (c : Cycle) : Prop := c.presented = .reset ∨ c.presented = .command (encode .crcInit)

/-- What start-up establishes: the empty message and its remainder, whatever the state was (70_reset_and_hazards.md R112). -/
def StartedUp (s : State) : Prop := s.crcR = crcReg [] ∧ s.msg = some [] ∧ Inv s

/-- The state right after reset is started up, with any inputs and any response of a legal code. -/
theorem startedUp_reset {rsp : Option Response} (hrsp : ∀ r, rsp = some r → r.code ≤ 0x03) (inputs : List Cycle) :
    StartedUp { State.reset with rsp := rsp, inputs := inputs } :=
  ⟨rfl, rfl, fun _ hm => Option.some.inj hm ▸ rfl, hrsp⟩

/-- Either start-up cycle starts the block up, from any state. -/
theorem step_of_startsUp {s : State} {c : Cycle} {rest : List Cycle} (hin : s.inputs = c :: rest) (hc : c.StartsUp) :
    ∃ t, step s = .next t ∧ StartedUp t ∧ t.inputs = rest := by
  have hrest : s.advance.inputs = rest := by rw [advance_of_head hin]
  rw [← currentCycle_of_head hin] at hc
  obtain hp | hp := hc
  · refine ⟨_, step_of_reset hp, ?_, hrest⟩
    exact startedUp_reset (rsp := none) (fun r hr => nomatch hr) s.advance.inputs
  · refine ⟨_, (step_of_legal hp (decode_encode .crcInit)).trans (exec_crcInit s.advance), ?_, hrest⟩
    rw [respond_startMessage_eq]
    refine startedUp_reset (fun r hr => ?_) s.advance.inputs
    cases hr
    decide

/-- So does any sequence of them, since the last one does. -/
theorem observe_of_startsUp {first : List Cycle} (hne : first ≠ []) (hfirst : ∀ c ∈ first, c.StartsUp) {s : State}
    {rest : List Cycle} (hin : s.inputs = first ++ rest) :
    ∃ rs u, observe first.length s = some (rs, u) ∧ StartedUp u ∧ u.inputs = rest := by
  induction first generalizing s with
  | nil => exact absurd rfl hne
  | cons c cs ih =>
    obtain ⟨t, hstep, ht, htin⟩ := step_of_startsUp hin (hfirst c List.mem_cons_self)
    rw [List.length_cons, observe_succ_of_next hstep]
    by_cases hcs : cs = []
    · subst hcs
      exact ⟨_, _, rfl, ht, htin⟩
    · obtain ⟨rs, u, hrun, hu⟩ := ih hcs (fun d hd => hfirst d (List.mem_cons_of_mem c hd)) htin
      rw [hrun]
      exact ⟨_, _, rfl, hu⟩

/-! ### The obligations -/

/-- Settles O52: the next state by the step of a reset edge, of which `presented` says that it has priority; the read by the
equation of `CRC_READ`. -/
theorem resetHasPriority : Obligations.ResetHasPriority := by
  refine ⟨fun s valid cmd rest hin => ?_, rfl, rfl, rfl, fun s t rest h => ?_, fun rest => ?_⟩
  · have hp : s.currentCycle.presented = .reset := by
      rw [currentCycle_of_head hin, Cycle.presented_eq_reset_iff]
    rw [step_of_reset hp, resetEdge_eq, advance_of_head hin]
  · cases h
    rfl
  · have hout : ({ State.reset with inputs := rest } : State).crcOut = 0x00000000 := startMessage_crcOut State.reset
    have hstep := step_presentNext_of_legal { State.reset with inputs := rest } (decode_encode .crcRead)
    exact ⟨_, hstep.trans (exec_crcRead _), hout ▸ respond_rsp ..⟩

/-- Settles O53: each command by its equation at the power-up state; the feeding commands fold from `c`, and each of the two
reads answers the complement of the register they left. -/
theorem beforeTheFirstReset : Obligations.BeforeTheFirstReset := by
  intro c
  refine ⟨rfl, ⟨_, exec_crcInit _, rfl, rfl⟩, fun w s => ⟨_, _, exec_tcDecode w _, exec_tcDecode w s, rfl, rfl⟩,
    fun cmd why hd => ⟨_, step_presentNext_of_illegal _ hd, rfl, rfl⟩, fun fs hfs => ?_, fun w => ?_⟩
  · obtain ⟨rs, t, hrun, hcrc, hmsg, -⟩ := observe_of_allFeed hfs (State.powerUp c)
    have hout : t.crcOut = crcFrom c (fedMessage fs) ^^^ 0xFFFFFFFF := congrArg (· ^^^ xorOut) hcrc
    rw [← hout, observe_presentCommands_append _ 2 hrun, observe_presentCommands_cons _ 1 (exec_crcRead t),
      observe_presentCommands_cons _ 0 (exec_crcRead _)]
    exact ⟨rs, _, rfl, hcrc, hmsg⟩
  · by_cases hw : c ^^^ 0xFFFFFFFF = w
    · exact ⟨_, _, exec_crcCheck_of_eq hw, rfl, rfl, iff_of_true rfl hw⟩
    · exact ⟨_, _, exec_crcCheck_of_ne hw, rfl, rfl, iff_of_false (FailureKind.code_ne_codeOk .invalidChecksum) hw⟩

/-- Settles O54: each of the six sequences is made of start-up cycles. -/
theorem startUpFromAnyState : Obligations.StartUpFromAnyState := by
  intro s cmd valid rest r i
  have hr : r.StartsUp := .inl rfl
  have hi : i.StartsUp := .inr rfl
  refine ⟨fun first hfirst => ?_, fun c w => ⟨_, _, exec_tcDecode w _, exec_tcDecode w s, rfl⟩⟩
  obtain ⟨hne, hstart⟩ : first ≠ [] ∧ ∀ d ∈ first, d.StartsUp := by
    simp only [List.mem_cons, List.not_mem_nil, or_false] at hfirst
    obtain rfl | rfl | rfl | rfl | rfl | rfl := hfirst <;> simp [hr, hi]
  obtain ⟨rs, u, hrun, ⟨hcrc, hmsg, hinv⟩, hin⟩ :=
    observe_of_startsUp hne hstart (s := { s with inputs := first ++ rest }) rfl
  exact ⟨rs, u, hrun, hcrc, hmsg, hin, hinv⟩

end Sys2Proof.Machine
end

section
/-! Decoding and encoding as inverses (30_encoding.md sections 1 and 3), for the word and for its five bytes in a listing; and
the step of a presented command. -/

namespace Sys2Proof

open Machine

/-- Decoding the bytes of a word at the head of a listing decodes the word, and leaves the rest. -/
theorem decodeBytes_wordBytes (cmd : CmdWord) (rest : List Byte) :
    decodeBytes (wordBytes cmd ++ rest) = (decode cmd, rest) := by
  simp [wordBytes, bytes4, decodeBytes, makeWord_fields]

/-- No two commands share a word, since decoding it gives each of them. -/
theorem encode_injective : Function.Injective encode := by
  intro i j h
  have hd : decode (encode i) = .legal j := by rw [h, decode_encode]
  rw [decode_encode] at hd
  exact Decoded.legal.inj hd

/-! ### The obligations -/

/-- Settles O8: the decoder is the inverse of the encoder, and the bytes of a word are decoded as the word. -/
theorem decodeOfEncode : Obligations.DecodeOfEncode := by
  intro i rest
  rw [decodeBytes_wordBytes, decode_encode]
  exact ⟨rfl, rfl⟩

/-- Settles O9, by the lemmas of the same three facts. -/
theorem encodeOfDecode : Obligations.EncodeOfDecode :=
  ⟨fun _ _ => encode_of_decode_eq_legal, wellFormed_iff_legal, fun _ _ h => encode_injective h⟩

/-- Settles O1: the head of the inputs is what the edge asks for, and the rest is what it leaves. -/
theorem stepRunsDecodedCommand : Obligations.StepRunsDecodedCommand := by
  intro s cmd rest i hin hd
  have hp : s.currentCycle.presented = .command cmd := presented_of_head hin
  rw [step_of_legal hp hd, advance_of_head hin]

/-- Settles O2: each of the words is by evaluation the encoding of its command. -/
theorem tableWordsDecode : Obligations.TableWordsDecode := by
  simp only [Obligations.TableWordsDecode, decode_eq_legal_iff]
  decide

end Sys2Proof
end

section
/-! The invariant of the block (10_state.md R18, 30_encoding.md R41), and what a step depends on (10_state.md R15, R17, R19): every
step has a next state, which the register and the inputs decide. -/

namespace Sys2Proof.Machine

/-! ### The register and the message -/

/-- The register holds the remainder of the message wherever the message has a meaning (10_state.md R18). -/
def HoldsMessage (s : State) : Prop := ∀ m, s.msg = some m → s.crcR = crcReg m

theorem holdsMessage_startMessage (s : State) : HoldsMessage (startMessage s) := fun _ hm => Option.some.inj hm ▸ rfl

theorem holdsMessage_feedBytes {s : State} (h : HoldsMessage s) (bs : List Byte) : HoldsMessage (feedBytes s bs) := by
  intro m hm
  rw [feedBytes_msg] at hm
  obtain ⟨m', hm', rfl⟩ := Option.map_eq_some_iff.mp hm
  rw [feedBytes_crcR, h m' hm', crcReg_append]

/-- Every command keeps the register on the message. -/
theorem holdsMessage_of_exec {i : Instr} {s t : State} (h : HoldsMessage s) (hexec : exec i s = .next t) :
    HoldsMessage t := by
  obtain ⟨n, code, data, hresp, hn⟩ := exec_shape i s
  rw [hresp] at hexec
  cases hexec
  change HoldsMessage n
  obtain ⟨rfl, -⟩ | ⟨rfl, -⟩ | ⟨bs, -, rfl, -⟩ := hn
  · exact h
  · exact holdsMessage_startMessage s
  · exact holdsMessage_feedBytes h bs

/-- Every step does. -/
theorem holdsMessage_of_step {s t : State} (h : HoldsMessage s) (hstep : step s = .next t) : HoldsMessage t := by
  obtain ⟨-, rfl⟩ | ⟨-, rfl⟩ | ⟨cmd, i, -, -, hexec⟩ | ⟨cmd, why, -, -, rfl⟩ := step_cases hstep
  · exact holdsMessage_startMessage s
  · exact h
  · exact holdsMessage_of_exec (s := s.advance) h hexec
  · exact h

/-! ### Every step has a next state -/

/-- A step ends in a next state and consumes one entry of the inputs. -/
theorem exists_step (s : State) : ∃ t, step s = .next t ∧ t.inputs = s.inputs.tail := by
  cases hp : s.currentCycle.presented with
  | reset => exact ⟨_, step_of_reset hp, rfl⟩
  | idle => exact ⟨_, step_of_idle hp, rfl⟩
  | command cmd =>
    obtain ⟨t, -, hstep, -, hin⟩ := step_presentNext_answers s.advance cmd
    rw [← (eq_presentNext_of_command hp).1] at hstep
    exact ⟨t, hstep, hin⟩

/-- What a step leaves in the register and answers is decided by the register and the inputs. -/
theorem step_congr {s t s' t' : State} (hc : s.crcR = t.crcR) (hin : s.inputs = t.inputs) (hs : step s = .next s')
    (ht : step t = .next t') : s'.crcR = t'.crcR ∧ s'.rsp = t'.rsp := by
  have hcycle : s.currentCycle = t.currentCycle := congrArg (List.headD · Cycle.idle) hin
  cases hp : t.currentCycle.presented with
  | reset =>
    rw [step_of_reset (hcycle ▸ hp)] at hs
    rw [step_of_reset hp] at ht
    cases hs; cases ht; exact ⟨rfl, rfl⟩
  | idle =>
    rw [step_of_idle (hcycle ▸ hp)] at hs
    rw [step_of_idle hp] at ht
    cases hs; cases ht; exact ⟨hc, rfl⟩
  | command cmd =>
    obtain ⟨hs', -⟩ := eq_presentNext_of_command (hcycle ▸ hp)
    obtain ⟨ht', -⟩ := eq_presentNext_of_command hp
    rw [hs'] at hs
    rw [ht'] at ht
    exact step_presentNext_congr_crcR cmd (s := s.advance) (t := t.advance) hc hs ht

/-! ### The obligations -/

/-- Settles O47: the register by `holdsMessage_of_step`; that every code is legal is a clause of `failureKindsExactly`. -/
theorem invariantIsKept : Obligations.InvariantIsKept := by
  intro s t hinv hstep
  exact ⟨holdsMessage_of_step hinv.register hstep, fun r hr => (failureKindsExactly.2 s t r hstep hr).1⟩

/-- Settles O48: after reset the message is empty, at power-up it has no meaning; neither state has a response. -/
theorem invariantAtStart : Obligations.InvariantAtStart :=
  ⟨⟨holdsMessage_startMessage State.reset, fun _ hr => (nomatch hr)⟩,
    fun _ => ⟨fun _ hm => (nomatch hm), fun _ hr => (nomatch hr)⟩⟩

/-- Settles O49, by `observe_presentWords_messageStep`; `crc_out` is the complement of the register. -/
theorem registerFollowsTheMessage : Obligations.RegisterFollowsTheMessage := by
  intro s m ws hs
  obtain ⟨rs, u, hrun, hlen, -, hcrc, hmsg⟩ := observe_presentWords_messageStep ws hs
  exact ⟨rs, u, hrun, hlen, hcrc, crcOut_of_crcReg hcrc, hmsg⟩

/-- Settles O50: both steps have a next state (`exists_step`), and they agree (`step_congr`). -/
theorem nothingHidden : Obligations.NothingHidden := by
  intro s t hc hin
  obtain ⟨s', hs, hsin⟩ := exists_step s
  obtain ⟨t', ht, htin⟩ := exists_step t
  obtain ⟨hcrc, hrsp⟩ := step_congr hc hin hs ht
  exact ⟨s', t', hs, ht, hcrc, by rw [hsin, htin, hin], hrsp⟩

/-- Settles O51, by induction on the number of steps: each has a next state, and with nothing to consume it is an idle edge. -/
theorem blockNeverHalts : Obligations.BlockNeverHalts := by
  refine ⟨fun n => ?_, fun n => ?_⟩
  · induction n with
    | zero => exact fun s => ⟨[], s, rfl, le_rfl⟩
    | succ n ih =>
      intro s
      obtain ⟨t, hstep, -⟩ := exists_step s
      obtain ⟨rs, u, hrun, hlen⟩ := ih t
      have hone : t.rsp.toList.length ≤ 1 := by cases t.rsp <;> simp
      refine ⟨t.rsp.toList ++ rs, u, ?_, ?_⟩
      · rw [observe_succ_of_next hstep, hrun]
        rfl
      · rw [List.length_append]
        omega
  · induction n with
    | zero => exact fun s _ => ⟨s, rfl, rfl, rfl⟩
    | succ n ih =>
      intro s hin
      have hidle := step_of_idle (presented_of_no_input hin)
      obtain ⟨u, hrun, hcrc, hmsg⟩ := ih (idleEdge s.advance) (by simp [hin])
      refine ⟨u, ?_, hcrc, hmsg⟩
      rw [observe_succ_of_next hidle, hrun]
      rfl

end Sys2Proof.Machine
end

section
/-! The algebra of the byte update, 40_crc.md R56, R57 and R59: a step is linear over exclusive-or, zeros below are shifted out
unchanged, and from both follow the table form, the difference of two checksums and the residue. -/

namespace Sys2Proof.Machine

/-! ### Linearity (R57 (a)) -/

theorem crcStep1_xor (c d : Word) : crcStep1 (c ^^^ d) = crcStep1 c ^^^ crcStep1 d := by
  apply BitVec.eq_of_getLsbD_eq
  intro i _
  simp only [crcStep1_bit, BitVec.getLsbD_xor, Bool.and_xor_distrib_right, Bool.xor_assoc,
    Bool.xor_left_comm]

theorem crcSteps_xor (n : Nat) (c d : Word) : crcSteps n (c ^^^ d) = crcSteps n c ^^^ crcSteps n d := by
  induction n generalizing c d with
  | zero => rfl
  | succ n ih => rw [crcSteps_succ, crcStep1_xor, ih, ← crcSteps_succ, ← crcSteps_succ]

theorem crcUpd8_xor (c d : Word) (a b : Byte) : crcUpd8 (c ^^^ d) (a ^^^ b) = crcUpd8 c a ^^^ crcUpd8 d b := by
  have hregroup : c ^^^ d ^^^ (a.setWidth 32 ^^^ b.setWidth 32) = (c ^^^ a.setWidth 32) ^^^ (d ^^^ b.setWidth 32) := by
    ac_rfl
  rw [crcUpd8, BitVec.setWidth_xor, hregroup, crcSteps_xor, ← crcUpd8, ← crcUpd8]

/-- Feeding the bytewise difference folds to the difference of the registers. -/
theorem crcFrom_zipWith_xor {s t : List Byte} (h : s.length = t.length) (c d : Word) :
    crcFrom (c ^^^ d) (List.zipWith (· ^^^ ·) s t) = crcFrom c s ^^^ crcFrom d t := by
  induction s generalizing t c d with
  | nil =>
    obtain rfl := List.length_eq_zero_iff.mp h.symm
    rfl
  | cons a s ih =>
    obtain ⟨b, t, rfl⟩ := List.exists_cons_of_length_eq_add_one h.symm
    rw [List.zipWith_cons_cons, crcFrom_cons, crcUpd8_xor, ih (Nat.succ.inj h), crcFrom_cons, crcFrom_cons]

/-! ### Bits that only pass through -/

/-- As long as zeros are shifted out, the steps are a shift. -/
theorem crcSteps_of_low_zeros {n : Nat} {c : Word} (h : ∀ i < n, c.getLsbD i = false) : crcSteps n c = c >>> n := by
  induction n generalizing c with
  | zero => simp
  | succ n ih =>
    have hstep : crcStep1 c = c >>> 1 := by
      rw [crcStep1, h 0 (Nat.succ_pos n), if_neg Bool.false_ne_true]
      exact BitVec.xor_zero
    have hlow (i : Nat) (hi : i < n) : (c >>> 1).getLsbD i = false := by
      rw [BitVec.getLsbD_ushiftRight]
      exact h (1 + i) (by omega)
    rw [crcSteps_succ, hstep, ih hlow, ← BitVec.shiftRight_add, Nat.add_comm]

/-- What is added after `n` steps may be added before them, `n` places higher, where no bit of it is lost there. -/
theorem crcSteps_xor_shiftLeft {n : Nat} {x : Word} (h : ∀ i, 32 ≤ n + i → x.getLsbD i = false) (c : Word) :
    crcSteps n (c ^^^ x <<< n) = crcSteps n c ^^^ x := by
  have hlow (i : Nat) (hi : i < n) : (x <<< n).getLsbD i = false := by simp [hi]
  have hback : x <<< n >>> n = x := by
    apply BitVec.eq_of_getLsbD_eq
    intro i _
    by_cases hi : n + i < 32
    · rw [BitVec.getLsbD_ushiftRight, BitVec.getLsbD_shiftLeft]
      simp [hi]
    · simp [h i (by omega)]
  rw [crcSteps_xor, crcSteps_of_low_zeros hlow, hback]

/-- The low byte of an operand may be fed first and the bytes above it added to what that leaves, where they fit. -/
theorem crcSteps_xor_append {m : Nat} (hm : m ≤ 24) (n : Nat) (c : Word) (x : BitVec m) (b : Byte) :
    crcSteps (8 + n) (c ^^^ (x ++ b).setWidth 32) = crcSteps n (crcUpd8 c b ^^^ x.setWidth 32) := by
  have hsplit : (x ++ b).setWidth 32 = b.setWidth 32 ^^^ x.setWidth 32 <<< 8 := by
    apply BitVec.eq_of_getLsbD_eq
    intro i hi
    rw [BitVec.getLsbD_setWidth, BitVec.getLsbD_append]
    by_cases h8 : i < 8
    · simp [hi, h8]
    · simp [hi, h8, b.getLsbD_of_ge i (by omega)]
  have hhigh (i : Nat) (hi : 32 ≤ 8 + i) : (x.setWidth 32).getLsbD i = false := by
    rw [BitVec.getLsbD_setWidth, x.getLsbD_of_ge i (by omega), Bool.and_false]
  rw [hsplit, ← BitVec.xor_assoc, crcSteps_add, crcSteps_xor_shiftLeft hhigh, ← crcUpd8]

/-- Eight steps look up the low byte and shift the upper bytes down. -/
theorem crcSteps_eight (d : Word) : crcSteps 8 d = tableEntry (d.extractLsb 7 0) ^^^ d >>> 8 := by
  have hsplit : (d.extractLsb' 8 24 ++ d.extractLsb' 0 8).setWidth 32 = d := by
    rw [BitVec.setWidth_eq]
    exact BitVec.extractLsb'_append_extractLsb'
  have hupper : (d.extractLsb' 8 24).setWidth 32 = d >>> 8 := by
    apply BitVec.eq_of_getLsbD_eq
    intro i hi
    by_cases h24 : i < 24
    · simp [hi, h24]
    · simp [hi, h24, d.getLsbD_of_ge (8 + i) (by omega)]
  have hsteps := crcSteps_xor_append le_rfl 0 0 (d.extractLsb' 8 24) (d.extractLsb' 0 8)
  rwa [hsplit, hupper, BitVec.ofNat_eq_ofNat, BitVec.zero_xor, crcSteps_zero, crcUpd8, BitVec.zero_xor] at hsteps

/-- The table form: the byte touches the low byte of the register only (R56). -/
theorem crcUpd8_eq_tableEntry (c : Word) (b : Byte) :
    crcUpd8 c b = tableEntry ((c ^^^ b.setWidth 32).extractLsb 7 0) ^^^ c >>> 8 := by
  have hbyte : b.setWidth 32 >>> 8 = 0#32 := by
    apply BitVec.eq_of_getLsbD_eq
    intro i _
    simp
  rw [crcUpd8, crcSteps_eight, BitVec.ushiftRight_xor_distrib, hbyte, BitVec.xor_zero]

/-! ### Four bytes at once (R59) -/

/-- Feeding four bytes is 32 steps on the register and the bytes packed, the first in the least significant place. -/
theorem crcFrom_four (c : Word) (b0 b1 b2 b3 : Byte) :
    crcFrom c [b0, b1, b2, b3] = crcSteps 32 (c ^^^ pack4 b3 b2 b1 b0) := by
  calc crcFrom c [b0, b1, b2, b3]
      = crcSteps 8 (crcUpd8 (crcUpd8 (crcUpd8 c b0) b1) b2 ^^^ b3.setWidth 32) := rfl
    _ = crcSteps 16 (crcUpd8 (crcUpd8 c b0) b1 ^^^ (b3 ++ b2).setWidth 32) := (crcSteps_xor_append (by decide) 8 ..).symm
    _ = crcSteps 24 (crcUpd8 c b0 ^^^ (b3 ++ b2 ++ b1).setWidth 32) := (crcSteps_xor_append (by decide) 16 ..).symm
    _ = crcSteps 32 (c ^^^ (b3 ++ b2 ++ b1 ++ b0).setWidth 32) := (crcSteps_xor_append (by decide) 24 ..).symm
    _ = crcSteps 32 (c ^^^ pack4 b3 b2 b1 b0) := by rw [BitVec.setWidth_eq, pack4]

/-- Four bytes after a message leave the residue exactly where they are its checksum, least significant byte first: the
register then meets its own complement (R59). -/
theorem crcReg_append_four_eq_residue_iff (s : List Byte) (b0 b1 b2 b3 : Byte) :
    crcReg (s ++ [b0, b1, b2, b3]) = residue ↔ pack4 b3 b2 b1 b0 = crc32 s := by
  have hresidue : residue = crcSteps 32 (crcReg s ^^^ crc32 s) := by
    rw [crc32, ← BitVec.xor_assoc, BitVec.xor_self]
    decide
  rw [crcReg_append, crcFrom_four, hresidue, (crcSteps_injective 32).eq_iff, BitVec.xor_right_inj]

/-! ### The obligations -/

/-- Settles O16: the form of any byte by `crcUpd8_eq_tableEntry`, the entries by evaluation. -/
theorem tableFormOfUpdate : Obligations.TableFormOfUpdate := by
  refine ⟨crcUpd8_eq_tableEntry, fun i => ?_, by decide, by decide, by decide, by decide⟩
  rw [crcUpd8, BitVec.ofNat_eq_ofNat, BitVec.zero_xor, tableEntry]

/-- Settles O17, by the linearity of the steps; the byte may be added to the register beforehand. -/
theorem updateIsLinear : Obligations.UpdateIsLinear := by
  refine ⟨crcUpd8_xor, fun c b => ?_⟩
  have hzero : (0x00 : Byte).setWidth 32 = 0#32 := by decide
  rw [crcUpd8, crcUpd8, hzero, BitVec.xor_zero]

/-- Settles O18: each map is injective since a step can be undone (`crcStep1_injective`), and there are finitely many words. -/
theorem updateIsBijective : Obligations.UpdateIsBijective := by
  have hfinite : Finite Word := Finite.of_equiv _ BitVec.equivFin.toEquiv.symm
  exact ⟨crcStep1_bit31, crcStep1_injective.bijective_of_finite,
    fun b => (crcUpd8_left_injective b).bijective_of_finite, crcUpd8_right_injective⟩

/-- Settles O19: the equal start values and the equal final complements cancel. -/
theorem differenceOfChecksums : Obligations.DifferenceOfChecksums := by
  intro s t h
  have hcancel : crc32 s ^^^ crc32 t = crcReg s ^^^ crcReg t := by
    rw [crc32, crc32, BitVec.xor_comm (crcReg t), BitVec.xor_assoc, ← BitVec.xor_assoc xorOut,
      BitVec.xor_self, BitVec.zero_xor]
  have hstart : (0 : Word) = initReg ^^^ initReg := (BitVec.xor_self).symm
  rw [hcancel, crcReg0, hstart, crcFrom_zipWith_xor h, crcReg, crcReg]

/-- Settles O21: packed in the opposite order, the four bytes are the checksum itself in the first case, and in file order
exactly where its bytes read the same in both orders. -/
theorem residueLaw : Obligations.ResidueLaw := by
  intro s v
  refine ⟨(crcReg_append_four_eq_residue_iff ..).mpr (pack4_bytes v), ?_⟩
  have hreverse : bytes4 (pack4 (byte3 v) (byte2 v) (byte1 v) (byte0 v)) = (bytes4 v).reverse := bytes4_pack4 ..
  calc crcReg (s ++ bytes4 v) = residue
      ↔ pack4 (byte3 v) (byte2 v) (byte1 v) (byte0 v) = v := crcReg_append_four_eq_residue_iff ..
    _ ↔ (bytes4 v).reverse = bytes4 v := by rw [← hreverse, bytes4_injective.eq_iff]

end Sys2Proof.Machine
end

section
/-! Packed operands (20_memory.md R25), and the response of `TC_DECODE` as a function of the flag bits of its operand
(41_typecode.md R83, R84). -/

namespace Sys2Proof.Machine

/-! ### The response to letters -/

/-- The bits of the response data, one for each byte's flag bit and `VALID` (41_typecode.md R81). -/
theorem tcFlagData_bits (w : Word) : (tcFlagData w).extractLsb 31 5 = 0 ∧
    (tcFlagData w).getLsbD 0 = !flagBit (byte0 w) ∧ (tcFlagData w).getLsbD 1 = !flagBit (byte1 w) ∧
    (tcFlagData w).getLsbD 2 = !flagBit (byte2 w) ∧ (tcFlagData w).getLsbD 3 = flagBit (byte3 w) ∧
    (tcFlagData w).getLsbD 4 = !flagBit (byte2 w) := by
  rw [tcFlagData_eq_flagWord]
  simp

/-- The type code of letters `A` and `a` whose response has the four given flags: `CRITICAL`, `PUBLIC`, `RESERVED`,
`SAFE_TO_COPY` in bits 0 to 3. -/
def typeCodeOfFlags (f : BitVec 4) : Word :=
  pack4 (if f.getLsbD 0 then 0x41 else 0x61) (if f.getLsbD 1 then 0x41 else 0x61) (if f.getLsbD 2 then 0x41 else 0x61)
    (if f.getLsbD 3 then 0x61 else 0x41)

/-- Each of the 16 values of the flags is answered, with `VALID` above them. -/
theorem tcResponse_typeCodeOfFlags : ∀ f : BitVec 4,
    tcResponse (typeCodeOfFlags f) = ⟨0x00, (0 : BitVec 27) ++ BitVec.ofBool (f.getLsbD 2) ++ f⟩ := by
  decide

/-! ### Changing the case of letters -/

theorem flagBit_xor (a b : Byte) : flagBit (a ^^^ b) = (flagBit a ^^ flagBit b) := by
  simp [flagBit_eq_getLsbD]

/-- A letter with its case changed is a letter. -/
theorem isAlpha_xor_flagMask : ∀ b : Byte, isAlpha b = true → isAlpha (b ^^^ flagMask) = true := by
  decide

/-- An operand that, added to a type code, changes the case of some of its bytes and nothing else. -/
abbrev ChangesCase (m : Word) : Prop := ∀ b ∈ bytes4 m, b = 0 ∨ b = flagMask

theorem isAlpha_xor_of_changesCase {a b : Byte} (ha : isAlpha a = true) (hb : b = 0 ∨ b = flagMask) :
    isAlpha (a ^^^ b) = true := by
  obtain rfl | rfl := hb
  · rwa [BitVec.ofNat_eq_ofNat, BitVec.xor_zero]
  · exact isAlpha_xor_flagMask a ha

theorem tcParseOk_xor {w m : Word} (h : tcParseOk w = true) (hm : ChangesCase m) : tcParseOk (w ^^^ m) = true := by
  obtain ⟨h0, h1, h2, h3⟩ := (tcParseOk_iff_letters w).mp h
  simp only [ChangesCase, bytes4, List.forall_mem_cons] at hm
  obtain ⟨hm0, hm1, hm2, hm3, -⟩ := hm
  simp only [tcParseOk_iff_letters, byte0, byte1, byte2, byte3, BitVec.extractLsb'_xor]
  exact ⟨isAlpha_xor_of_changesCase h0 hm0, isAlpha_xor_of_changesCase h1 hm1, isAlpha_xor_of_changesCase h2 hm2,
    isAlpha_xor_of_changesCase h3 hm3⟩

theorem append_ofBool_xor {n : Nat} (x y : BitVec n) (a b : Bool) :
    (x ^^^ y) ++ BitVec.ofBool (a ^^ b) = (x ++ BitVec.ofBool a) ^^^ (y ++ BitVec.ofBool b) := by
  rw [BitVec.xor_append, BitVec.ofBool_xor_ofBool]

/-- Flag words differ where their flags do. -/
theorem flagWord_xor (v s r p c v' s' r' p' c' : Bool) :
    flagWord (v ^^ v') (s ^^ s') (r ^^ r') (p ^^ p') (c ^^ c') = flagWord v s r p c ^^^ flagWord v' s' r' p' c' := by
  have hzero : (0 : BitVec 27) = 0 ^^^ 0 := rfl
  rw [flagWord, hzero]
  simp only [append_ofBool_xor]
  rfl

/-- Changing the case of some bytes flips the flags of these bytes, for byte 2 `RESERVED` and `VALID`, and no other. -/
theorem tcResponse_xor {w m : Word} (h : tcParseOk w = true) (hm : ChangesCase m) : tcResponse (w ^^^ m) =
    ⟨0x00, tcFlagData w ^^^ flagWord (flagBit (byte2 m)) (flagBit (byte3 m)) (flagBit (byte2 m)) (flagBit (byte1 m))
      (flagBit (byte0 m))⟩ := by
  rw [tcResponse_of_letters (tcParseOk_xor h hm), tcFlagData_eq_flagWord, tcFlagData_eq_flagWord, ← flagWord_xor]
  simp only [byte0, byte1, byte2, byte3, BitVec.extractLsb'_xor, flagBit_xor, Bool.not_xor]

/-! ### The obligations -/

/-- Settles O10: the bytes are by definition those of the rule, `CRC_WORD` folds them in order, and for letters the flag bit of
a byte is its case. -/
theorem bigEndianPacking : Obligations.BigEndianPacking := by
  refine ⟨fun w => rfl, bytes4_pack4, packHead_bytes4, by decide, fun s b0 b1 b2 b3 => ⟨_, exec_crcWord .., ?_⟩,
    fun s b0 b1 b2 b3 h0 h1 h2 h3 => ⟨_, _, exec_tcDecode .., rfl, ?_⟩⟩
  · rw [respond_crcR, feedBytes_crcR, bytes4_pack4]
    rfl
  · have hw : tcParseOk (pack4 b0 b1 b2 b3) = true := by simp [tcParseOk_iff_letters, h0, h1, h2, h3]
    obtain ⟨-, hcrit, hpub, hres, hsafe, -⟩ := tcFlagData_bits (pack4 b0 b1 b2 b3)
    rw [byte0_pack4, ← isUpper_eq_not_flagBit h0] at hcrit
    rw [byte1_pack4, ← isUpper_eq_not_flagBit h1] at hpub
    rw [byte2_pack4, ← isUpper_eq_not_flagBit h2] at hres
    rw [byte3_pack4, ← isLower_eq_flagBit h3] at hsafe
    rw [tcResponse_of_letters hw]
    exact ⟨hcrit, hpub, hres, hsafe⟩

/-- Settles O42: the two cases of the response, the data bit by bit, and a type code for each of the 16 values. -/
theorem tcResponseLaws : Obligations.TcResponseLaws := by
  refine ⟨fun s w => ⟨_, _, exec_tcDecode w s, rfl, rfl, ?_⟩, fun s f => ⟨typeCodeOfFlags f, _, exec_tcDecode .., ?_⟩⟩
  · refine ⟨?_, tcResponse_code_eq_invalid_iff w, fun hcode => ?_, fun hcode => ?_⟩
    · cases hw : tcParseOk w with
      | true => exact .inl ((tcResponse_code_eq_ok_iff w).mpr hw)
      | false => exact .inr ((tcResponse_code_eq_invalid_iff w).mpr hw)
    · rw [tcResponse_of_other ((tcResponse_code_eq_invalid_iff w).mp hcode)]
    · rw [tcResponse_of_letters ((tcResponse_code_eq_ok_iff w).mp hcode)]
      obtain ⟨hhigh, hcrit, hpub, hres, hsafe, hvalid⟩ := tcFlagData_bits w
      rw [flagBit_byte0] at hcrit
      rw [flagBit_byte1] at hpub
      rw [flagBit_byte3] at hsafe
      exact ⟨hhigh, hvalid.trans hres.symm, hcrit, hpub, flagBit_byte2 w ▸ hres, hsafe⟩
  · rw [tcResponse_typeCodeOfFlags]

/-- Settles O43: each of the four operands changes the case of one byte, whose flags `tcResponse_xor` reads off it. -/
theorem flagsAreIndependent : Obligations.FlagsAreIndependent := by
  intro s w h
  have hflip {m d : Word} (hm : ChangesCase m) (hd : flagWord (flagBit (byte2 m)) (flagBit (byte3 m)) (flagBit (byte2 m))
      (flagBit (byte1 m)) (flagBit (byte0 m)) = d) :
      exec (.tcDecode (w ^^^ m)) s = .next { s with rsp := some ⟨0x00, tcFlagData w ^^^ d⟩ } := by
    rw [exec_tcDecode, tcResponse_xor h hm, hd]
  refine ⟨tcFlagData w, by rw [exec_tcDecode, tcResponse_of_letters h], ?_, ?_, ?_, ?_⟩
  · exact hflip (by decide) (by decide)
  · exact hflip (by decide) (by decide)
  · exact hflip (by decide) (by decide)
  · exact hflip (by decide) (by decide)

end Sys2Proof.Machine
end

section
/-! What the commands that leave the register alone do (10_state.md R11, 20_memory.md R29), and the register event by event:
who writes it and with what, and who reads it. -/

namespace Sys2Proof.Machine

/-! ### Commands and words that keep the register -/

theorem writesCrc_of_fedBytes {i : Instr} {bs : List Byte} (h : fedBytes i = some bs) : writesCrc i = true := by
  cases i with
  | crcByte b | crcWord w => rfl
  | crcInit | crcRead | crcCheck w | tcDecode w => cases h

/-- A command that does not write the register writes its response only. -/
theorem exec_of_not_writesCrc {i : Instr} (h : writesCrc i = false) (s : State) :
    ∃ r, exec i s = .next { s with rsp := some r } := by
  obtain ⟨n, code, data, hexec, hn⟩ := exec_shape i s
  obtain ⟨rfl, -⟩ | ⟨-, rfl⟩ | ⟨bs, hbs, -, -⟩ := hn
  · exact ⟨⟨code, data⟩, hexec⟩
  · cases h
  · rw [writesCrc_of_fedBytes hbs] at h
    cases h

/-- So does a presented word that keeps the register, legal or not. -/
theorem step_of_keepsCrc {cmd : CmdWord} (h : keepsCrc cmd = true) (s : State) :
    ∃ r, step (presentNext s cmd) = .next { s with rsp := some r } := by
  cases hd : decode cmd with
  | illegal why => exact ⟨⟨0x03, 0⟩, step_presentNext_of_illegal s hd⟩
  | legal i =>
    rw [step_presentNext_of_legal s hd]
    exact exec_of_not_writesCrc (by simpa [keepsCrc, hd] using h) s

/-- Any number of such words leave the last response and nothing else. -/
theorem observe_of_keepsCrc {ws : List CmdWord} (h : ∀ c ∈ ws, keepsCrc c = true) (s : State) :
    ∃ rs r, observe ws.length (presentWords s ws) = some (rs, { s with rsp := r }) := by
  induction ws generalizing s with
  | nil => exact ⟨[], s.rsp, rfl⟩
  | cons c ws ih =>
    obtain ⟨r, hstep⟩ := step_of_keepsCrc (h c List.mem_cons_self) (presentWords s ws)
    obtain ⟨rs, r', hrun⟩ := ih (fun d hd => h d (List.mem_cons_of_mem c hd)) { s with rsp := some r }
    refine ⟨r :: rs, r', ?_⟩
    have hrun : observe ws.length { presentWords s ws with rsp := some r } = some (rs, { s with rsp := r' }) := hrun
    rw [List.length_cons, presentWords_cons, observe_succ_of_next hstep, hrun]
    rfl

/-- A word behind words that keep the register is answered as if they had not been presented. -/
theorem observe_of_keepsCrc_concat {ws : List CmdWord} (h : ∀ c ∈ ws, keepsCrc c = true) {s u : State} {cmd : CmdWord}
    {r : Response} (hstep : step (presentNext s cmd) = .next u) (hr : u.rsp = some r) :
    ∃ rs, observe (ws.length + 1) (presentWords s (ws ++ [cmd])) = some (rs ++ [r], u) := by
  obtain ⟨rs, r', hrun⟩ := observe_of_keepsCrc h (presentNext s cmd)
  rw [presentWords_append]
  exact ⟨rs, observe_concat hrun ((step_with_rsp _ r').trans hstep) hr⟩

/-! ### Commands that read the register -/

/-- A command that reads the register answers with the complement of what it leaves there. -/
theorem exec_of_readsCrc {i : Instr} (h : readsCrc i = true) (s : State) : ∃ t r, exec i s = .next t ∧ t.rsp = some r ∧
    r.data = crcFrom s.crcR ((fedBytes i).getD []) ^^^ xorOut := by
  cases i with
  | crcInit | tcDecode w => cases h
  | crcByte b => exact ⟨_, _, exec_crcByte b s, rfl, rfl⟩
  | crcWord w => exact ⟨_, _, exec_crcWord w s, rfl, rfl⟩
  | crcRead => exact ⟨_, _, exec_crcRead s, rfl, rfl⟩
  | crcCheck w =>
    by_cases hw : s.crcOut = w
    · exact ⟨_, _, exec_crcCheck_of_eq hw, rfl, rfl⟩
    · exact ⟨_, _, exec_crcCheck_of_ne hw, rfl, rfl⟩

/-- It answers two different register values differently, since feeding loses none (`crcFrom_injective`). -/
theorem exec_rsp_ne_of_readsCrc {i : Instr} (h : readsCrc i = true) {s s' : State} (hs : s.crcR ≠ s'.crcR) :
    ∃ t t', exec i s = .next t ∧ exec i s' = .next t' ∧ t.rsp ≠ t'.rsp := by
  obtain ⟨t, r, hexec, hr, hdata⟩ := exec_of_readsCrc h s
  obtain ⟨t', r', hexec', hr', hdata'⟩ := exec_of_readsCrc h s'
  refine ⟨t, t', hexec, hexec', fun heq => hs ?_⟩
  have hrr : r = r' := Option.some.inj (hr.symm.trans (heq.trans hr'))
  rw [hrr, hdata', BitVec.xor_left_inj] at hdata
  exact (crcFrom_injective _ hdata).symm

/-- The answer of a command that does not read the register does not depend on it. -/
theorem exec_rsp_of_not_readsCrc {i : Instr} (h : readsCrc i = false) {s s' t t' : State} (hexec : exec i s = .next t)
    (hexec' : exec i s' = .next t') : t.rsp = t'.rsp := by
  cases i with
  | crcInit => cases hexec; cases hexec'; rfl
  | tcDecode w =>
    rw [exec_tcDecode] at hexec hexec'
    cases hexec; cases hexec'; rfl
  | crcByte b | crcWord w | crcRead | crcCheck w => cases h

theorem step_rsp_of_not_readsCrc {cmd : CmdWord} (h : ∀ i, decode cmd = .legal i → readsCrc i = false) {s s' t t' : State}
    (hstep : step (presentNext s cmd) = .next t) (hstep' : step (presentNext s' cmd) = .next t') : t.rsp = t'.rsp := by
  cases hd : decode cmd with
  | legal i =>
    rw [step_presentNext_of_legal _ hd] at hstep hstep'
    exact exec_rsp_of_not_readsCrc (h i hd) hstep hstep'
  | illegal why =>
    rw [step_presentNext_of_illegal _ hd] at hstep hstep'
    cases hstep; cases hstep'; rfl

theorem readsCrc_iff_mnemonic (i : Instr) :
    readsCrc i = true ↔ i.mnemonic ∈ ["CRC_BYTE", "CRC_WORD", "CRC_READ", "CRC_CHECK"] := by
  cases i with
  | crcInit | tcDecode w => exact iff_of_false Bool.false_ne_true (by simp [Instr.mnemonic])
  | crcByte b | crcWord w | crcRead | crcCheck w => exact iff_of_true rfl (by simp [Instr.mnemonic])

/-! ### What each event leaves in the register -/

theorem currentCycle_of_mem_head? {s : State} {c : Cycle} (h : c ∈ s.inputs.head?) : s.currentCycle = c := by
  rw [State.currentCycle, List.headD_eq_head?_getD, h, Option.getD_some]

/-- A command that does not write the register leaves it, and the message. -/
theorem crcR_of_not_writesCrc {i : Instr} (h : writesCrc i = false) {s t : State} (hexec : exec i s = .next t) :
    t.crcR = s.crcR ∧ t.msg = s.msg := by
  obtain ⟨r, hr⟩ := exec_of_not_writesCrc h s
  rw [hr] at hexec
  cases hexec
  exact ⟨rfl, rfl⟩

/-! ### The obligations -/

/-- Settles O28: every command answers and consumes no input (`exec_answers`), and the three that do not write the register
leave it and the message. -/
theorem commandFrame : Obligations.CommandFrame := by
  intro i s t hexec
  obtain ⟨t', r, hexec', hr, hin⟩ := exec_answers i s
  obtain rfl : t' = t := Host.Outcome.next.inj (hexec'.symm.trans hexec)
  refine ⟨hin, by rw [hr]; rfl, ?_⟩
  rintro (rfl | ⟨w, rfl⟩ | ⟨w, rfl⟩) <;> exact crcR_of_not_writesCrc rfl hexec

/-- Settles O29: the first answer leaves a state that differs in the response port only, which no edge reads, so the second step
is the first again. -/
theorem readersMayBeRepeated : Obligations.ReadersMayBeRepeated := by
  intro i cmds s t hi hcmds hstep
  have hexec := (step_presentNext_of_legal s (decode_encode i)).symm.trans hstep
  obtain ⟨r, hr⟩ := exec_of_not_writesCrc hi s
  obtain rfl := Host.Outcome.next.inj (hr.symm.trans hexec)
  have hagain : step (presentNext { s with rsp := some r } (encode i)) = .next { s with rsp := some r } :=
    (step_with_rsp (presentNext s (encode i)) (some r)).trans hstep
  obtain ⟨rs, hrun⟩ := observe_of_keepsCrc_concat hcmds hagain rfl
  exact ⟨rs, _, r, hrun, rfl, rfl, rfl⟩

/-- Settles O30: the read answers `crc_out` and leaves it, and the check compares with it, whatever came between. -/
theorem readThenCheckAccepts : Obligations.ReadThenCheckAccepts := by
  intro s t v cmds hexec hr hcmds
  cases hexec
  obtain rfl : s.crcOut = v := congrArg Response.data (Option.some.inj hr)
  have hcheck := (step_presentNext_of_legal _ (decode_encode (.crcCheck s.crcOut))).trans
    (exec_crcCheck_of_eq (s := respond s codeOk s.crcOut) rfl)
  obtain ⟨rs, hrun⟩ := observe_of_keepsCrc_concat hcmds hcheck (respond_rsp ..)
  exact ⟨rs, _, hrun, rfl, rfl⟩

/-- Settles O46: the register event by event, from the equation of each edge and command; the answers by whether the command
reads it. -/
theorem whoReadsAndWritesTheRegister : Obligations.WhoReadsAndWritesTheRegister := by
  refine ⟨fun s t hstep => ⟨fun hin => ?_, fun c hc => ?_⟩, fun s s' c cmd h hstep => ?_, fun i s h => ?_,
    readsCrc_iff_mnemonic⟩
  · rw [step_of_idle (presented_of_no_input hin)] at hstep
    cases hstep
    rfl
  · have hcycle := currentCycle_of_mem_head? hc
    split_ifs with hrst hvalid
    · rw [step_of_reset (by rwa [hcycle, Cycle.presented_eq_reset_iff])] at hstep
      cases hstep
      rfl
    · rw [step_of_idle (by rw [hcycle, Cycle.presented_eq_idle_iff]; exact ⟨by simpa using hrst, hvalid⟩)] at hstep
      cases hstep
      rfl
    · have hp : s.currentCycle.presented = .command c.cmd := by
        rw [hcycle, Cycle.presented_eq_command_iff]
        exact ⟨by simpa using hrst, by simpa using hvalid, rfl⟩
      rw [step_of_command hp] at hstep
      cases hd : decode c.cmd with
      | illegal why =>
        rw [hd] at hstep
        cases hstep
        rfl
      | legal i =>
        rw [hd] at hstep
        cases i with
        | crcInit | crcByte b | crcWord w => cases hstep; rfl
        | crcRead | crcCheck w | tcDecode w => exact (crcR_of_not_writesCrc rfl hstep).1
  · obtain ⟨t', r, hstep', -⟩ := step_presentNext_answers { s with crcR := c } cmd
    exact ⟨t', hstep', step_rsp_of_not_readsCrc h hstep' hstep⟩
  · have hne : s.crcR ≠ s.crcR + 1 := by simp
    exact ⟨s.crcR + 1, exec_rsp_ne_of_readsCrc h (s' := { s with crcR := s.crcR + 1 }) hne⟩

end Sys2Proof.Machine
end

section
/-! The host's sequences on the block: the checksum of a new segment and the verification of a serialized one (40_crc.md R66,
R67), with the slices of a segment they rest on (20_memory.md R22 to R24). -/

namespace Sys2Proof.Machine

/-! ### What a message answers, command by command -/

/-- Feeding commands answer OK each, the last one with the checksum so far; where there is none, it is the checksum before. -/
theorem answers_of_allFeed {fs : List Instr} (h : allFeed fs = true) {s t : State} {rs : List Response}
    (hrun : observe fs.length (presentCommands s fs) = some (rs, t)) :
    rs.length = fs.length ∧ (∀ r ∈ rs, r.code = codeOk) ∧
      (⟨codeOk, s.crcOut⟩ :: rs).getLast? = some ⟨codeOk, t.crcOut⟩ := by
  induction fs generalizing s rs with
  | nil =>
    cases hrun
    exact ⟨rfl, by simp, rfl⟩
  | cons i fs ih =>
    obtain ⟨hi, hfs⟩ : (fedBytes i).isSome = true ∧ allFeed fs = true := by simpa [allFeed] using h
    obtain ⟨bs, hbs⟩ := Option.isSome_iff_exists.mp hi
    rw [List.length_cons, observe_presentCommands_cons _ _ (exec_of_fedBytes hbs s)] at hrun
    obtain ⟨⟨rs', t'⟩, hrun', hq⟩ := Option.map_eq_some_iff.mp hrun
    cases hq
    obtain ⟨hlen, hok, hlast⟩ := ih hfs hrun'
    exact ⟨congrArg (· + 1) hlen, List.forall_mem_cons.mpr ⟨rfl, hok⟩, hlast⟩

/-- `CRC_INIT` and feeding commands, from any state: one OK each, the last with the checksum of the message, and its remainder in
the register. -/
theorem observe_message {fs : List Instr} (h : allFeed fs = true) (s : State) : ∃ rs t,
    observe (fs.length + 1) (presentCommands s (.crcInit :: fs)) = some (rs, t) ∧ rs.length = fs.length + 1 ∧
      (∀ r ∈ rs, r.code = 0x00) ∧ rs.getLast? = some ⟨0x00, crc32 (fedMessage fs)⟩ ∧ t.crcR = crcReg (fedMessage fs) ∧
      t.msg = some (fedMessage fs) ∧ t.inputs = s.inputs := by
  obtain ⟨rs, t, hrun, hcrc, hmsg, hin⟩ := observe_of_allFeed h (respond (startMessage s) codeOk 0)
  obtain ⟨hlen, hok, hlast⟩ := answers_of_allFeed h hrun
  rw [respond_crcOut, startMessage_crcOut, crcOut_of_crcReg (m := fedMessage fs) hcrc] at hlast
  refine ⟨⟨codeOk, 0⟩ :: rs, t, ?_, congrArg (· + 1) hlen, List.forall_mem_cons.mpr ⟨rfl, hok⟩, hlast, hcrc, hmsg, hin⟩
  rw [observe_presentCommands_cons _ _ (exec_crcInit s), hrun]
  rfl

/-! ### The two sequences -/

/-- The feeding commands of a segment's message: its type code, then its payload byte by byte. -/
def feedSegment (tc : Word) (payload : List Byte) : List Instr := .crcWord tc :: payload.map .crcByte

theorem newSegmentCommands_eq (tc : Word) (payload : List Byte) :
    newSegmentCommands tc payload = .crcInit :: feedSegment tc payload ++ [.crcRead] := rfl

theorem verifyCommands_eq (tc : Word) (payload : List Byte) (stored : Word) :
    verifyCommands tc payload stored = .crcInit :: feedSegment tc payload ++ [.crcCheck stored] := rfl

theorem length_feedSegment (tc : Word) (payload : List Byte) : (feedSegment tc payload).length = payload.length + 1 := by
  simp [feedSegment]

theorem allFeed_feedSegment (tc : Word) (payload : List Byte) : allFeed (feedSegment tc payload) = true := by
  simp [allFeed, feedSegment, fedBytes]

theorem fedMessage_feedSegment (tc : Word) (payload : List Byte) :
    fedMessage (feedSegment tc payload) = segmentMessage tc payload := by
  simp [fedMessage, feedSegment, fedBytes, segmentMessage, List.flatMap_map]

/-- Reading after a message answers its checksum and leaves everything else. -/
theorem observe_message_crcRead {fs : List Instr} (h : allFeed fs = true) (s : State) : ∃ rs t,
    observe (fs.length + 2) (presentCommands s (.crcInit :: fs ++ [.crcRead])) =
      some (rs ++ [⟨0x00, crc32 (fedMessage fs)⟩], t) ∧
    rs.length = fs.length + 1 ∧ rs.getLast? = some ⟨0x00, crc32 (fedMessage fs)⟩ ∧ (∀ r ∈ rs, r.code = 0x00) ∧
    t.crcR = crcReg (fedMessage fs) ∧ t.msg = some (fedMessage fs) ∧ t.inputs = s.inputs := by
  obtain ⟨rs, t, hrun, hlen, hok, hlast, hcrc, hmsg, hin⟩ := observe_message h s
  refine ⟨rs, _, observe_presentCommands_concat hrun (exec_crcRead t) ?_, hlen, hlast, hok, hcrc, hmsg, hin⟩
  rw [respond_rsp, crcOut_of_crcReg hcrc, codeOk_eq]

/-- Verifying answers OK up to the check, which answers OK exactly where the stored checksum is the one of the message. -/
theorem observe_verifyCommands (tc : Word) (payload : List Byte) (stored : Word) (s : State) : ∃ rs t,
    observe (verifyCommands tc payload stored).length (presentCommands s (verifyCommands tc payload stored)) =
      some (rs ++ [⟨if crc32 (segmentMessage tc payload) = stored then 0x00 else 0x02,
        crc32 (segmentMessage tc payload)⟩], t) ∧ ∀ r ∈ rs, r.code = 0x00 := by
  obtain ⟨rs, t, hrun, -, hok, -, hcrc, -⟩ := observe_message (allFeed_feedSegment tc payload) s
  have hout := crcOut_of_crcReg hcrc
  rw [fedMessage_feedSegment] at hout
  have hlen : (verifyCommands tc payload stored).length = (feedSegment tc payload).length + 2 := by
    simp [verifyCommands_eq]
  rw [hlen, verifyCommands_eq]
  split_ifs with hstored
  · exact ⟨rs, _, observe_presentCommands_concat hrun (exec_crcCheck_of_eq (hout.trans hstored)) (hout ▸ respond_rsp ..),
      hok⟩
  · exact ⟨rs, _, observe_presentCommands_concat hrun (exec_crcCheck_of_ne (hout ▸ hstored)) (hout ▸ raise_rsp ..), hok⟩

/-! ### Slices of a serialized segment -/

@[simp] theorem length_bytes4 (w : Word) : (bytes4 w).length = 4 := rfl

@[simp] theorem packHead_bytes4_append (w : Word) (rest : List Byte) : packHead (bytes4 w ++ rest) = some w :=
  congrArg some (pack4_bytes w)

/-- Four bytes at the head of a sequence pack to the operand whose bytes they are. -/
theorem exists_packHead {bs : List Byte} (h : 4 ≤ bs.length) : ∃ w, packHead bs = some w ∧ bytes4 w = bs.take 4 := by
  match bs, h with
  | b0 :: b1 :: b2 :: b3 :: rest, _ => exact ⟨pack4 b0 b1 b2 b3, rfl, bytes4_pack4 ..⟩

/-- The bytes of a serialized segment after its length field, and after its type code. -/
theorem segmentBytes_drop_4 (length tc checksum : Word) (payload : List Byte) :
    (segmentBytes length tc payload checksum).drop 4 = bytes4 tc ++ (payload ++ bytes4 checksum) := by
  rw [segmentBytes, List.append_assoc, List.append_assoc]
  exact List.drop_left (l₁ := bytes4 length)

theorem segmentBytes_drop_8 (length tc checksum : Word) (payload : List Byte) :
    (segmentBytes length tc payload checksum).drop 8 = payload ++ bytes4 checksum := by
  have hdrop : (segmentBytes length tc payload checksum).drop (4 + 4) = payload ++ bytes4 checksum := by
    rw [← List.drop_drop, segmentBytes_drop_4]
    exact List.drop_left (l₁ := bytes4 tc)
  exact hdrop

theorem segmentTypeCode_segmentBytes (length tc checksum : Word) (payload : List Byte) :
    segmentTypeCode (segmentBytes length tc payload checksum) = some tc := by
  rw [segmentTypeCode, segmentBytes_drop_4, packHead_bytes4_append]

theorem segmentChecksum_segmentBytes (length tc checksum : Word) (payload : List Byte) :
    segmentChecksum (segmentBytes length tc payload checksum) payload.length = some checksum := by
  rw [segmentChecksum, ← List.drop_drop, segmentBytes_drop_8, List.drop_left, packHead_bytes4]

theorem messageSlice_segmentBytes (length tc checksum : Word) (payload : List Byte) :
    messageSlice (segmentBytes length tc payload checksum) payload.length = segmentMessage tc payload := by
  have hlen : 4 + payload.length = (bytes4 tc ++ payload).length := by simp
  rw [messageSlice, segmentBytes_drop_4, ← List.append_assoc, hlen, List.take_left, segmentMessage]

/-- The message of a serialized segment is its type code and its payload. -/
theorem messageSlice_eq_append (bytes : List Byte) (length : Nat) :
    messageSlice bytes length = (bytes.drop 4).take 4 ++ (bytes.drop 8).take length := by
  rw [messageSlice, List.take_add, List.drop_drop]

/-- What verifying a segment takes apart: the two packed fields and the payload. -/
theorem verifySegment_eq {bytes : List Byte} {length : Nat} {tc stored : Word} (htc : segmentTypeCode bytes = some tc)
    (hstored : segmentChecksum bytes length = some stored) : verifySegment bytes length =
      some (.tcDecode tc, verifyCommands tc ((bytes.drop 8).take length) stored) := by
  simp [verifySegment, htc, hstored]

/-! ### The obligations -/

/-- Settles O31: reading after a message answers its checksum; the rule's sequence is the message of `feedSegment`, read. -/
theorem newSegmentChecksum : Obligations.NewSegmentChecksum :=
  ⟨fun s _ h => observe_message_crcRead h s,
    fun tc p => ⟨feedSegment tc p, newSegmentCommands_eq tc p, allFeed_feedSegment tc p, fedMessage_feedSegment tc p⟩⟩

/-- Settles O32: the sequence checks the packed stored bytes against the checksum of the slice, and packing loses nothing. -/
theorem verifySegmentIsExact : Obligations.VerifySegmentIsExact := by
  intro s bytes length hlen
  obtain ⟨tc, htc, htcBytes⟩ := exists_packHead (bs := bytes.drop 4) (by rw [List.length_drop]; omega)
  obtain ⟨stored, hstored, hstoredBytes⟩ := exists_packHead (bs := bytes.drop (8 + length)) (by rw [List.length_drop]; omega)
  have hmessage : segmentMessage tc ((bytes.drop 8).take length) = (bytes.drop 4).take (4 + length) := by
    rw [segmentMessage, htcBytes, ← messageSlice_eq_append, messageSlice]
  obtain ⟨rs, u, hrun, hok⟩ :=
    observe_verifyCommands tc ((bytes.drop 8).take length) stored { s with rsp := some (tcResponse tc) }
  rw [hmessage] at hrun
  refine ⟨_, _, _, _, verifySegment_eq htc hstored, step_tcDecode (decode_encode _) s, rfl, rfl, rfl, ?_, fun hcode => ?_,
    rs, _, u, hrun, hok, ?_, fun hcode => ?_⟩
  · rw [tcResponse_code_eq_invalid_iff, tcParseOk_eq_false_iff, htcBytes]
  · rw [tcResponse_code_eq_ok_iff]
    rwa [ne_eq, tcResponse_code_eq_invalid_iff, Bool.not_eq_false] at hcode
  · rw [← hstoredBytes, bytes4_injective.eq_iff]
    simp
  · exact if_neg fun heq => hcode (if_pos heq)

/-- Settles O33: the checksum read is the one of the message, so the check of the same message against it accepts it. -/
theorem serializedSegmentVerifies : Obligations.SerializedSegmentVerifies := by
  intro s t len tc v p rs hread
  have hv : crc32 (segmentMessage tc p) = v := by
    obtain ⟨rs', t', hrun, -⟩ := observe_message_crcRead (allFeed_feedSegment tc p) s
    rw [fedMessage_feedSegment, length_feedSegment] at hrun
    have heq := Option.some.inj (hrun.symm.trans hread)
    have hlast := congrArg (fun q => q.1.getLast?) heq
    simpa using hlast
  obtain ⟨qs, u, hrun, -⟩ := observe_verifyCommands tc p v t
  have hpayload : ((segmentBytes len tc p v).drop 8).take p.length = p := by
    rw [segmentBytes_drop_8, List.take_left]
  rw [if_pos hv, hv] at hrun
  exact ⟨_, _, qs, u, verifySegment_eq (segmentTypeCode_segmentBytes len tc v p)
    (segmentChecksum_segmentBytes len tc v p), rfl, hpayload.symm ▸ hrun⟩

/-- Settles O34, slice by slice. -/
theorem segmentSlices : Obligations.SegmentSlices := by
  refine ⟨fun len tc v p => ⟨?_, messageSlice_segmentBytes len tc v p, segmentTypeCode_segmentBytes len tc v p,
    segmentChecksum_segmentBytes len tc v p⟩, fun bytes length k _ hk => ?_, fun bytes length hlen => ?_⟩
  · simp [segmentBytes]
    omega
  · rw [messageSlice, List.getElem?_take_of_lt hk, List.getElem?_drop]
  · rw [messageSlice, List.length_take, List.length_drop]
    omega

/-- Settles O36, command by command: each feeds `b`, and the second answers the checksum so far. -/
theorem heldCommandFeedsTwice : Obligations.HeldCommandFeedsTwice := by
  intro s b m hs
  have hcrc : (feedBytes s [b, b]).crcR = crcReg (m ++ [b, b]) := by rw [feedBytes_crcR, hs, crcReg_append]
  refine ⟨⟨codeOk, (feedByte s b).crcOut⟩, ⟨codeOk, (feedBytes s [b, b]).crcOut⟩,
    respond (feedBytes s [b, b]) codeOk (feedBytes s [b, b]).crcOut, ?_, hcrc, crcOut_of_crcReg hcrc⟩
  rw [observe_presentCommands_cons _ 1 (exec_crcByte b s), observe_presentCommands_cons _ 0 (exec_crcByte b _)]
  rfl

end Sys2Proof.Machine
end

section
/-! Listings: the words of each form of a line (30_encoding.md R43), and the pseudo-commands, run on the block (R44). -/

namespace Sys2Proof.Machine

/-! ### Lines -/

/-- A line gives its words where its operands are in range, and an error where they are not. -/
theorem assembleLine_of_inRange {l : AsmLine} (h : l.inRange = true) : assembleLine l = .ok l.words := if_pos h

theorem assembleLine_of_not_inRange {l : AsmLine} (h : l.inRange = false) :
    assembleLine l = .error .operandOutOfRange := if_neg (by simp [h])

/-- A condition that decides the range of a line decides its outcome. -/
theorem assembleLine_eq_ite {l : AsmLine} {p : Prop} [Decidable p] (h : l.inRange = true ↔ p) :
    assembleLine l = if p then .ok l.words else .error .operandOutOfRange := by
  split_ifs with hp
  · exact assembleLine_of_inRange (h.mpr hp)
  · exact assembleLine_of_not_inRange (Bool.eq_false_iff.mpr fun hin => hp (h.mp hin))

/-- Four characters pack as their four codes. -/
theorem packText_four (a b c d : Nat) : packText [a, b, c, d] =
    pack4 (BitVec.ofNat 8 a) (BitVec.ofNat 8 b) (BitVec.ofNat 8 c) (BitVec.ofNat 8 d) := rfl

theorem fourCodes_eq_false {cs : List Nat} (h : cs.length ≠ 4) : fourCodes cs = false := by
  simpa [fourCodes] using h

/-- Every line but `.word` stands for commands, which its words encode. -/
theorem exists_words_eq_encode {l : AsmLine} (h : ∀ n, l ≠ .word n) : ∃ is : List Instr, l.words = is.map encode := by
  cases l with
  | crcInit => exact ⟨[.crcInit], rfl⟩
  | crcByte n => exact ⟨[.crcByte (BitVec.ofNat 8 n)], rfl⟩
  | crcWord n => exact ⟨[.crcWord (BitVec.ofNat 32 n)], rfl⟩
  | crcWordText cs => exact ⟨[.crcWord (packText cs)], rfl⟩
  | crcRead => exact ⟨[.crcRead], rfl⟩
  | crcCheck n => exact ⟨[.crcCheck (BitVec.ofNat 32 n)], rfl⟩
  | tcDecode n => exact ⟨[.tcDecode (BitVec.ofNat 32 n)], rfl⟩
  | tcDecodeText cs => exact ⟨[.tcDecode (packText cs)], rfl⟩
  | word n => exact absurd rfl (h n)
  | crcStr cs => exact ⟨_, rfl⟩
  | crcSeg tc payload => exact ⟨_, rfl⟩

/-! ### Pseudo-commands -/

theorem codesFit_iff (cs : List Nat) : codesFit cs = true ↔ ∀ c ∈ cs, c ≤ 255 := by
  simp [codesFit]

theorem asciiCodes_four_iff (a b c d : Nat) :
    asciiCodes [a, b, c, d] = true ↔ a ≤ 127 ∧ b ≤ 127 ∧ c ≤ 127 ∧ d ≤ 127 := by
  simp [asciiCodes]

theorem assembleLine_crcStr {cs : List Nat} (h : ∀ c ∈ cs, c ≤ 255) :
    assembleLine (.crcStr cs) = .ok ((expandStr (textBytes cs)).map encode) :=
  assembleLine_of_inRange ((codesFit_iff cs).mpr h)

/-- The expansion of `CRC_SEG` starts a message and feeds the segment's. -/
theorem expandSeg_eq (tc : Word) (payload : List Byte) : expandSeg tc payload = .crcInit :: feedSegment tc payload := rfl

/-! ### The obligations -/

/-- Settles O55: each form by its range and its words; the words of every line but `.word` encode commands. -/
theorem assemblerSyntax : Obligations.AssemblerSyntax := by
  refine ⟨by decide, by decide, fun n => assembleLine_eq_ite decide_eq_true_iff,
    fun n => assembleLine_eq_ite decide_eq_true_iff, fun n => assembleLine_eq_ite decide_eq_true_iff,
    fun n => assembleLine_eq_ite decide_eq_true_iff, fun n => assembleLine_eq_ite decide_eq_true_iff,
    fun a b c d => assembleLine_eq_ite (asciiCodes_four_iff a b c d), fun a b c d => assembleLine_eq_ite ?_,
    fun cs hcs => ⟨assembleLine_of_not_inRange ?_, assembleLine_of_not_inRange ?_⟩, fun l ws hl hok c hc => ?_⟩
  · exact (codesFit_iff [a, b, c, d]).trans (by simp)
  · rw [AsmLine.inRange, fourCodes_eq_false hcs, Bool.false_and]
  · rw [AsmLine.inRange, fourCodes_eq_false hcs, Bool.false_and]
  · obtain ⟨is, his⟩ := exists_words_eq_encode hl
    have hws : l.words = ws := by
      unfold assembleLine at hok
      split_ifs at hok
      exact Except.ok.inj hok
    rw [← hws, his] at hc
    obtain ⟨i, -, rfl⟩ := List.mem_map.mp hc
    exact ⟨i, decode_encode i⟩

/-- Settles O56: the expansions by their ranges and words; `CRC_SEG` on the block is the message of its segment. -/
theorem pseudoCommands : Obligations.PseudoCommands := by
  refine ⟨fun cs hcs => ?_, rfl, fun a b c d p ha hb hc hd hp => ⟨_, assembleLine_crcStr hp, ?_, fun s => ?_⟩⟩
  · rw [assembleLine_crcStr hcs, expandStr, textBytes, List.map_map, List.map_map]
    rfl
  · refine assembleLine_of_inRange ?_
    rw [AsmLine.inRange, (codesFit_iff p).mpr hp, (asciiCodes_four_iff a b c d).mpr ⟨ha, hb, hc, hd⟩]
    rfl
  · obtain ⟨rs, u, hrun, hlen, -, -, hcrc, -⟩ :=
      observe_message (allFeed_feedSegment (packText [a, b, c, d]) (textBytes p)) s
    have hcount : ((expandStr (textBytes p)).map encode).length + 1 =
        (feedSegment (packText [a, b, c, d]) (textBytes p)).length := by
      rw [length_feedSegment]
      simp [expandStr]
    rw [fedMessage_feedSegment, segmentMessage, packText_four, bytes4_pack4] at hcrc
    rw [← hcount] at hrun hlen
    exact ⟨rs, u, hrun, hlen, hcrc⟩

end Sys2Proof.Machine
end
